-- ==== Sys2Proof/Word.lean ====
section
/-! DEFINITION. The word, byte and register-index types (spec/00_scope.md R7, R10; spec/10_state.md R24, R41). -/

namespace Sys2Proof

/-- A 32-bit value: a register, the program counter, an address, an instruction word (R7, R10). -/
abbrev Word := BitVec 32

/-- One memory byte (R50). -/
abbrev Byte := BitVec 8

/-- A 7-bit opcode (R71). -/
abbrev Opcode := BitVec 7

/-- A register index. Indices come only from 5-bit fields, so none is out of range (R24, R41). -/
abbrev RegIdx := BitVec 5

end Sys2Proof
end

