-- ==== Sys2Proof/Config.lean ====
section
/-! DEFINITION. What the source leaves to the model's arguments: the parameters of spec/00_scope.md R8 and
the performance configuration of spec/10_state.md R36, as types, and when their values are legal.
The reference values stand in Machine/Reference.lean, where a repair can mend them. -/

namespace Sys2Proof

/-- The 20 mnemonics of the opcode table, in the order of R2. HALT has no opcode of its own (R83). -/
inductive Mnemonic where
  | add | sub | xor | and | srl | sra
  | addi | subi | xori | slti | srai
  | jalr | beq | bge | blt | jal
  | lw | lb | sw | sb
  deriving DecidableEq, Repr

/-- The decode classes (R13, R41, R72). -/
inductive InstrClass where
  | r | i | sb | j | halt | invalid
  deriving DecidableEq, Repr

/-- The five cost buckets (R13, R73; spec/90_conflicts.md C1 keeps S and B apart). -/
inductive Bucket where
  | r | i | s | b | j
  deriving DecidableEq, Repr

/-- `OPC`, the opcode of each mnemonic, as data (R8, R83). -/
structure OpcodeMap where
  add  : Opcode
  sub  : Opcode
  xor  : Opcode
  and  : Opcode
  srl  : Opcode
  sra  : Opcode
  addi : Opcode
  subi : Opcode
  xori : Opcode
  slti : Opcode
  srai : Opcode
  jalr : Opcode
  beq  : Opcode
  bge  : Opcode
  blt  : Opcode
  jal  : Opcode
  lw   : Opcode
  lb   : Opcode
  sw   : Opcode
  sb   : Opcode
  deriving DecidableEq, Repr

/-- `OPC(m)` (R83). -/
def OpcodeMap.of (o : OpcodeMap) : Mnemonic → Opcode
  | .add  => o.add
  | .sub  => o.sub
  | .xor  => o.xor
  | .and  => o.and
  | .srl  => o.srl
  | .sra  => o.sra
  | .addi => o.addi
  | .subi => o.subi
  | .xori => o.xori
  | .slti => o.slti
  | .srai => o.srai
  | .jalr => o.jalr
  | .beq  => o.beq
  | .bge  => o.bge
  | .blt  => o.blt
  | .jal  => o.jal
  | .lw   => o.lw
  | .lb   => o.lb
  | .sw   => o.sw
  | .sb   => o.sb

/-- Every mnemonic once, in the order of R2. -/
def Mnemonic.all : List Mnemonic :=
  [.add, .sub, .xor, .and, .srl, .sra, .addi, .subi, .xori, .slti, .srai,
   .jalr, .beq, .bge, .blt, .jal, .lw, .lb, .sw, .sb]

/-- The two constraints of R83: `OPC` is injective, and no value is 0b1111111. -/
abbrev OpcodeMap.legal (o : OpcodeMap) : Prop :=
  (Mnemonic.all.map o.of).Nodup ∧ ∀ m ∈ Mnemonic.all, o.of m ≠ 0b1111111

/-- `HALT_MATCH`: what decodes as HALT (R8, D4). -/
inductive HaltMatch where
  | fullWord | opcodeOnly
  deriving DecidableEq, Repr

/-- `INVALID_POLICY`: what an unrecognised opcode does (R8, D6). -/
inductive InvalidPolicy where
  | spin | fault
  deriving DecidableEq, Repr

/-- `SHAMT_MODE`: how a shift amount is formed from a 32-bit value (R8, D7). -/
inductive ShamtMode where
  | low5 | saturate
  deriving DecidableEq, Repr

/-- `LB_EXT`: how lb widens a byte (R8, D8). -/
inductive LbExt where
  | zero | sign
  deriving DecidableEq, Repr

/-- `MISALIGNED_FETCH`: a fetch at a PC that is not a multiple of 4 (R8, D10). -/
inductive MisalignedFetch where
  | fault | fetch
  deriving DecidableEq, Repr

/-- `JALR_ORDER`: whether jalr reads rs1 after or before it writes rd (R8, D12). -/
inductive JalrOrder where
  | writeFirst | readFirst
  deriving DecidableEq, Repr

/-- The performance configuration `cfg` (R36). A cost is an integer 0..2^32−1, which its type says (D14). -/
structure PerfConfig where
  freqMhz : Nat
  costR   : BitVec 32
  costI   : BitVec 32
  costS   : BitVec 32
  costB   : BitVec 32
  costJ   : BitVec 32
  deriving DecidableEq, Repr

/-- `freq_mhz > 0` is required of the host (R36, R221; D14). -/
abbrev PerfConfig.legal (c : PerfConfig) : Prop := 0 < c.freqMhz

/-- The parameters of R8, in the order of its table. -/
structure Params where
  opc             : OpcodeMap
  haltMatch       : HaltMatch
  countHalt       : Bool
  invalidPolicy   : InvalidPolicy
  shamtMode       : ShamtMode
  lbExt           : LbExt
  misalignedFetch : MisalignedFetch
  jalrOrder       : JalrOrder
  cntWidth        : Nat
  cfg             : PerfConfig
  deriving DecidableEq, Repr

/-- The legal values of R8. -/
abbrev Params.legal (p : Params) : Prop :=
  p.opc.legal ∧ 0 < p.cntWidth ∧ p.cfg.legal

end Sys2Proof
end

