-- ==== Sys2Proof/Machine/Reference.lean ====
section
/-! DEFINITION. The reference values of the parameters (spec/00_scope.md R8, spec/30_encoding.md R84) and the size of
memory. They stand in a file directly under Machine/ so that a repair can mend one when a test shows it wrong. -/

namespace Sys2Proof

/-- MEM_SIZE = 1,048,576 bytes (R7, R50; the literal is unaudited, R3: notes/assumptions/25.md). -/
def memSize : Nat := 1048576

/-- `OPC_ref` (R84). DESIGN CHOICE of the spec, notes/assumptions/2.md. -/
def opcRef : OpcodeMap where
  add  := 0x01
  sub  := 0x02
  xor  := 0x03
  and  := 0x04
  srl  := 0x05
  sra  := 0x06
  addi := 0x07
  subi := 0x08
  xori := 0x09
  slti := 0x0A
  srai := 0x0B
  jalr := 0x0C
  beq  := 0x0D
  bge  := 0x0E
  blt  := 0x0F
  jal  := 0x10
  lw   := 0x11
  lb   := 0x12
  sw   := 0x13
  sb   := 0x14

/-- The performance configuration of the spec's programs (spec/95_test_vectors.md section 3). DESIGN CHOICE as a
reset value, since R36 gives none: notes/assumptions/11.md. -/
def cfgRef : PerfConfig where
  freqMhz := 1
  costR := 1
  costI := 2
  costS := 3
  costB := 4
  costJ := 5

/-- The reference values of R8. DESIGN CHOICE of the spec, notes/assumptions/1.md to 11.md. -/
def paramsRef : Params where
  opc := opcRef
  haltMatch := .fullWord
  countHalt := false
  invalidPolicy := .spin
  shamtMode := .low5
  lbExt := .zero
  misalignedFetch := .fault
  jalrOrder := .writeFirst
  cntWidth := 64
  cfg := cfgRef

end Sys2Proof
end

