-- ==== Sys2Proof/Syntax.lean ====
section
/-! DEFINITION. The instructions: one constructor per row of spec/opcode_table.json. -/

namespace Sys2Proof

/-- One instruction, its fields as R12 and R41 name them: `rd`, `rs1`, `rs2` are 5-bit register indices, `imm`
is the decoded unsigned immediate. Operand order within a constructor: rd, rs1, rs2, imm. An INVALID word is no
instruction: it is no row of the table, and the decoder rejects it by name (notes/assumptions/20.md). -/
inductive Instr where
  | add  (rd rs1 rs2 : RegIdx)
  | sub  (rd rs1 rs2 : RegIdx)
  | xor  (rd rs1 rs2 : RegIdx)
  | and  (rd rs1 rs2 : RegIdx)
  | srl  (rd rs1 rs2 : RegIdx)
  | sra  (rd rs1 rs2 : RegIdx)
  | addi (rd rs1 : RegIdx) (imm : Nat)
  | subi (rd rs1 : RegIdx) (imm : Nat)
  | xori (rd rs1 : RegIdx) (imm : Nat)
  | slti (rd rs1 : RegIdx) (imm : Nat)
  | srai (rd rs1 : RegIdx) (imm : Nat)
  | jalr (rd rs1 : RegIdx) (imm : Nat)
  | beq  (rs1 rs2 : RegIdx) (imm : Nat)
  | bge  (rs1 rs2 : RegIdx) (imm : Nat)
  | blt  (rs1 rs2 : RegIdx) (imm : Nat)
  | jal  (rd : RegIdx) (imm : Nat)
  | lw   (rd rs1 : RegIdx) (imm : Nat)
  | lb   (rd rs1 : RegIdx) (imm : Nat)
  | sw   (rs1 rs2 : RegIdx) (imm : Nat)
  | sb   (rs1 rs2 : RegIdx) (imm : Nat)
  | halt
  deriving DecidableEq, Repr

end Sys2Proof
end

