-- ==== Sys2Proof/WellFormed.lean ====
section
/-! DEFINITION. When an instruction's fields fit its layout (spec/30_encoding.md R75 to R77, R86). Register
indices fit by their type. -/

namespace Sys2Proof

/-- A 12-bit immediate of the I and S/B layouts is in 0..4095 (R75, R76, R86). -/
def imm12Fits (imm : Nat) : Bool := decide (imm < 2 ^ 12)

/-- A 20-bit immediate of the J layout is in 0..1,048,575 (R77, R86). -/
def imm20Fits (imm : Nat) : Bool := decide (imm < 2 ^ 20)

/-- Every field of the instruction meets the preconditions of R86. -/
def Instr.wellFormed : Instr → Bool
  | .add _ _ _    => true
  | .sub _ _ _    => true
  | .xor _ _ _    => true
  | .and _ _ _    => true
  | .srl _ _ _    => true
  | .sra _ _ _    => true
  | .addi _ _ imm => imm12Fits imm
  | .subi _ _ imm => imm12Fits imm
  | .xori _ _ imm => imm12Fits imm
  | .slti _ _ imm => imm12Fits imm
  | .srai _ _ imm => imm12Fits imm
  | .jalr _ _ imm => imm12Fits imm
  | .beq _ _ imm  => imm12Fits imm
  | .bge _ _ imm  => imm12Fits imm
  | .blt _ _ imm  => imm12Fits imm
  | .jal _ imm    => imm20Fits imm
  | .lw _ _ imm   => imm12Fits imm
  | .lb _ _ imm   => imm12Fits imm
  | .sw _ _ imm   => imm12Fits imm
  | .sb _ _ imm   => imm12Fits imm
  | .halt         => true

end Sys2Proof
end

