-- ==== Sys2Proof/Decode.lean ====
section
/-! DEFINITION. The decoder and the encoder (spec/30_encoding.md). The decoder is total on any word and on any list of
bytes, and rejects by name. -/

namespace Sys2Proof

/-! ### Fields (R71, R74 to R77) -/

/-- `op := w[6:0]` (R71). -/
def opField (w : Word) : Opcode := w.extractLsb' 0 7

/-- `rd := w[11:7]` (R74, R75, R77). -/
def rdField (w : Word) : RegIdx := w.extractLsb' 7 5

/-- `rs1 := w[19:15]` (R74 to R76). -/
def rs1Field (w : Word) : RegIdx := w.extractLsb' 15 5

/-- `rs2 := w[24:20]` (R74, R76). -/
def rs2Field (w : Word) : RegIdx := w.extractLsb' 20 5

/-- The I-class immediate, `w[31:20]`, unsigned (R75). -/
def immI (w : Word) : Nat := (w.extractLsb' 20 12).toNat

/-- The S/B-class immediate, `(w[31:25] << 5) | w[11:7]`, unsigned (R76). -/
def immSB (w : Word) : Nat := (w.extractLsb' 25 7 ++ w.extractLsb' 7 5).toNat

/-- The J-class immediate, `w[31:12]` in plain order, unsigned (R77). -/
def immJ (w : Word) : Nat := (w.extractLsb' 12 20).toNat

/-! ### Classification (R72, R73) -/

/-- `CLASS(m)`, the decode layout of a mnemonic (R73). DESIGN CHOICE of the spec for jalr, lw, lb and jal (D3,
notes/assumptions/12.md). -/
def Mnemonic.cls : Mnemonic → InstrClass
  | .add  => .r
  | .sub  => .r
  | .xor  => .r
  | .and  => .r
  | .srl  => .r
  | .sra  => .r
  | .addi => .i
  | .subi => .i
  | .xori => .i
  | .slti => .i
  | .srai => .i
  | .jalr => .i
  | .beq  => .sb
  | .bge  => .sb
  | .blt  => .sb
  | .jal  => .j
  | .lw   => .i
  | .lb   => .i
  | .sw   => .sb
  | .sb   => .sb

/-- The halt sentinel, the all-ones word (R78). -/
def haltWord : Word := 0xFFFFFFFF

/-- The halt test of R72, by `HALT_MATCH`. -/
def isHaltWord (p : Params) (w : Word) : Bool :=
  match p.haltMatch with
  | .fullWord   => w == haltWord
  | .opcodeOnly => opField w == 0b1111111

/-- The mnemonic whose opcode this is; unique when `OPC` is legal (R72, R102). -/
def mnemonicOf (p : Params) (op : Opcode) : Option Mnemonic :=
  Mnemonic.all.find? fun m => p.opc.of m == op

/-- `classify(w)` (R72): the halt test comes first, then the opcode table, else INVALID. -/
def classify (p : Params) (w : Word) : InstrClass :=
  if isHaltWord p w then .halt
  else match mnemonicOf p (opField w) with
    | some m => m.cls
    | none   => .invalid

/-! ### The decoder (R41, R102) -/

/-- Why the decoder gives no instruction. -/
inductive Reject where
  /-- An INVALID word: its opcode is assigned to no mnemonic (R79, R85). -/
  | invalidOpcode (op : Opcode)
  /-- Fewer than the four bytes of an instruction (R70); the step never decodes so few. -/
  | truncated (nBytes : Nat)
  deriving DecidableEq, Repr

/-- The instruction of mnemonic `m` in the word `w`, its fields read by the layout of `m`'s class and never by
another (R73 to R77, R102). -/
def Instr.ofWord (w : Word) : Mnemonic → Instr
  | .add  => .add (rdField w) (rs1Field w) (rs2Field w)
  | .sub  => .sub (rdField w) (rs1Field w) (rs2Field w)
  | .xor  => .xor (rdField w) (rs1Field w) (rs2Field w)
  | .and  => .and (rdField w) (rs1Field w) (rs2Field w)
  | .srl  => .srl (rdField w) (rs1Field w) (rs2Field w)
  | .sra  => .sra (rdField w) (rs1Field w) (rs2Field w)
  | .addi => .addi (rdField w) (rs1Field w) (immI w)
  | .subi => .subi (rdField w) (rs1Field w) (immI w)
  | .xori => .xori (rdField w) (rs1Field w) (immI w)
  | .slti => .slti (rdField w) (rs1Field w) (immI w)
  | .srai => .srai (rdField w) (rs1Field w) (immI w)
  | .jalr => .jalr (rdField w) (rs1Field w) (immI w)
  | .beq  => .beq (rs1Field w) (rs2Field w) (immSB w)
  | .bge  => .bge (rs1Field w) (rs2Field w) (immSB w)
  | .blt  => .blt (rs1Field w) (rs2Field w) (immSB w)
  | .jal  => .jal (rdField w) (immJ w)
  | .lw   => .lw (rdField w) (rs1Field w) (immI w)
  | .lb   => .lb (rdField w) (rs1Field w) (immI w)
  | .sw   => .sw (rs1Field w) (rs2Field w) (immSB w)
  | .sb   => .sb (rs1Field w) (rs2Field w) (immSB w)

/-- `decode : BitVec 32 → Decoded` (R41, R102), total and pure. A HALT word and an INVALID word use no field (R78,
R79); a `-` bit is ignored (R82). -/
def decodeWord (p : Params) (w : Word) : Except Reject Instr :=
  if isHaltWord p w then .ok .halt
  else match mnemonicOf p (opField w) with
    | some m => .ok (Instr.ofWord w m)
    | none   => .error (.invalidOpcode (opField w))

/-- Four bytes in the order they lie in memory, as one big-endian word (R53, R57). -/
def wordOfBytes (b0 b1 b2 b3 : Byte) : Word := b0 ++ b1 ++ b2 ++ b3

/-- Byte `k` of a word, counted from the most significant end (R55, R58). -/
def byteOfWord (w : Word) (k : Nat) : Byte := w.extractLsb' (24 - 8 * k) 8

/-- The decoder over any list of bytes: the instruction and the bytes after it (R70: always four). -/
def decodeBytes (p : Params) : List Byte → Except Reject (Instr × List Byte)
  | b0 :: b1 :: b2 :: b3 :: rest =>
    match decodeWord p (wordOfBytes b0 b1 b2 b3) with
    | .ok i    => .ok (i, rest)
    | .error e => .error e
  | bs => .error (.truncated bs.length)

/-- The four bytes of a word as memory holds them, lowest address first (R55). -/
def bytesOfWord (w : Word) : List Byte :=
  [byteOfWord w 0, byteOfWord w 1, byteOfWord w 2, byteOfWord w 3]

/-- What the decoder reads from a row's word under the reference parameters. Bits at `nbits` and above are 0. -/
def decodeTableWord (nbits w : Nat) : Option Instr :=
  match decodeBytes paramsRef (bytesOfWord (BitVec.ofNat 32 (w % 2 ^ nbits))) with
  | .ok (i, _) => some i
  | .error _   => none

/-! ### The instruction's mnemonic and class (R73) -/

/-- The mnemonic of an instruction; HALT has none (R41). -/
def Instr.mnemonic? : Instr → Option Mnemonic
  | .add _ _ _  => some .add
  | .sub _ _ _  => some .sub
  | .xor _ _ _  => some .xor
  | .and _ _ _  => some .and
  | .srl _ _ _  => some .srl
  | .sra _ _ _  => some .sra
  | .addi _ _ _ => some .addi
  | .subi _ _ _ => some .subi
  | .xori _ _ _ => some .xori
  | .slti _ _ _ => some .slti
  | .srai _ _ _ => some .srai
  | .jalr _ _ _ => some .jalr
  | .beq _ _ _  => some .beq
  | .bge _ _ _  => some .bge
  | .blt _ _ _  => some .blt
  | .jal _ _    => some .jal
  | .lw _ _ _   => some .lw
  | .lb _ _ _   => some .lb
  | .sw _ _ _   => some .sw
  | .sb _ _ _   => some .sb
  | .halt       => none

/-- The class of an instruction (R72, R73). -/
def Instr.cls (i : Instr) : InstrClass :=
  match i.mnemonic? with
  | some m => m.cls
  | none   => .halt

/-! ### The encoder (R86) -/

/-- `encode(R, o, rd, rs1, rs2)`; refuses a field out of range (R86). -/
def encodeR (o : Opcode) (rd rs1 rs2 : Nat) : Option Word :=
  if rd < 32 ∧ rs1 < 32 ∧ rs2 < 32 then
    some (0#7 ++ BitVec.ofNat 5 rs2 ++ BitVec.ofNat 5 rs1 ++ 0#3 ++ BitVec.ofNat 5 rd ++ o)
  else none

/-- `encode(I, o, rd, rs1, imm)`; refuses a field out of range (R86). -/
def encodeI (o : Opcode) (rd rs1 imm : Nat) : Option Word :=
  if rd < 32 ∧ rs1 < 32 ∧ imm < 2 ^ 12 then
    some (BitVec.ofNat 12 imm ++ BitVec.ofNat 5 rs1 ++ 0#3 ++ BitVec.ofNat 5 rd ++ o)
  else none

/-- `encode(SB, o, rs1, rs2, imm)`; refuses a field out of range (R86). -/
def encodeSB (o : Opcode) (rs1 rs2 imm : Nat) : Option Word :=
  if rs1 < 32 ∧ rs2 < 32 ∧ imm < 2 ^ 12 then
    some ((BitVec.ofNat 12 imm).extractLsb' 5 7 ++ BitVec.ofNat 5 rs2 ++ BitVec.ofNat 5 rs1 ++ 0#3 ++
      (BitVec.ofNat 12 imm).extractLsb' 0 5 ++ o)
  else none

/-- `encode(J, o, rd, imm)`; refuses a field out of range (R86). -/
def encodeJ (o : Opcode) (rd imm : Nat) : Option Word :=
  if rd < 32 ∧ imm < 2 ^ 20 then
    some (BitVec.ofNat 20 imm ++ BitVec.ofNat 5 rd ++ o)
  else none

/-- `encode(HALT)` (R86). -/
def encodeHalt : Word := haltWord

/-- The word of an instruction, with every `-` bit 0; none where a field is out of range (R86). -/
def encode (p : Params) : Instr → Option Word
  | .add rd rs1 rs2  => encodeR (p.opc.of .add) rd.toNat rs1.toNat rs2.toNat
  | .sub rd rs1 rs2  => encodeR (p.opc.of .sub) rd.toNat rs1.toNat rs2.toNat
  | .xor rd rs1 rs2  => encodeR (p.opc.of .xor) rd.toNat rs1.toNat rs2.toNat
  | .and rd rs1 rs2  => encodeR (p.opc.of .and) rd.toNat rs1.toNat rs2.toNat
  | .srl rd rs1 rs2  => encodeR (p.opc.of .srl) rd.toNat rs1.toNat rs2.toNat
  | .sra rd rs1 rs2  => encodeR (p.opc.of .sra) rd.toNat rs1.toNat rs2.toNat
  | .addi rd rs1 imm => encodeI (p.opc.of .addi) rd.toNat rs1.toNat imm
  | .subi rd rs1 imm => encodeI (p.opc.of .subi) rd.toNat rs1.toNat imm
  | .xori rd rs1 imm => encodeI (p.opc.of .xori) rd.toNat rs1.toNat imm
  | .slti rd rs1 imm => encodeI (p.opc.of .slti) rd.toNat rs1.toNat imm
  | .srai rd rs1 imm => encodeI (p.opc.of .srai) rd.toNat rs1.toNat imm
  | .jalr rd rs1 imm => encodeI (p.opc.of .jalr) rd.toNat rs1.toNat imm
  | .beq rs1 rs2 imm => encodeSB (p.opc.of .beq) rs1.toNat rs2.toNat imm
  | .bge rs1 rs2 imm => encodeSB (p.opc.of .bge) rs1.toNat rs2.toNat imm
  | .blt rs1 rs2 imm => encodeSB (p.opc.of .blt) rs1.toNat rs2.toNat imm
  | .jal rd imm      => encodeJ (p.opc.of .jal) rd.toNat imm
  | .lw rd rs1 imm   => encodeI (p.opc.of .lw) rd.toNat rs1.toNat imm
  | .lb rd rs1 imm   => encodeI (p.opc.of .lb) rd.toNat rs1.toNat imm
  | .sw rs1 rs2 imm  => encodeSB (p.opc.of .sw) rs1.toNat rs2.toNat imm
  | .sb rs1 rs2 imm  => encodeSB (p.opc.of .sb) rs1.toNat rs2.toNat imm
  | .halt            => some encodeHalt

/-- The `-` bits of a class's layout, as a mask: bits that no field uses and the decoder ignores (R74 to R76, R82).
J has none (R77). HALT's word is matched, not laid out (R78). -/
def ignoredMask : InstrClass → Word
  | .r       => 0xFE007000
  | .i       => 0x00007000
  | .sb      => 0x00007000
  | .j       => 0x00000000
  | .halt    => 0x00000000
  | .invalid => 0x00000000

end Sys2Proof
end

