-- ==== Sys2Proof/Machine/State.lean ====
section
/-! DEFINITION. The state of the block (spec/10_state.md R20), why a step can stop, and the state after reset
(R40). Plain data throughout. -/

namespace Sys2Proof.Machine

/-- The memory's bytes (spec/20_memory.md R50): the listed cells, and 0 at every address not listed, which is the
spec's reset value of a byte (R40). -/
structure Memory where
  cells : List Host.Cell
  deriving DecidableEq, Repr

/-- The canonical form: addresses strictly rising, no listed byte equal to 0, none outside memory. -/
abbrev Memory.wf (m : Memory) : Prop :=
  m.cells.Pairwise (fun c d => c.1 < d.1) ∧ ∀ c ∈ m.cells, c.2 ≠ 0 ∧ c.1 < memSize

/-- Memory as reset leaves it: every byte 0 (R40). -/
def Memory.zero : Memory := ⟨[]⟩

/-- The kinds of fatal error (spec/10_state.md R32, spec/60_exceptions.md R212). -/
inductive FaultKind where
  | fetchOutOfBounds
  | misalignedFetch
  | loadOutOfBounds
  | storeOutOfBounds
  | invalidOpcode
  deriving DecidableEq, Repr

/-- The record of a fatal error (R31, R211): its kind, the address involved, and the PC of the instruction. -/
structure FaultRecord where
  kind : FaultKind
  addr : Word
  pc   : Word
  deriving DecidableEq, Repr

/-- The run status (R31, R32). -/
inductive Status where
  | running
  | halted
  | faulted (f : FaultRecord)
  deriving DecidableEq, Repr

/-- The state of R20. `params` is not state in the spec but the arguments of its step (R8, R20); it stands here
because `exec` and `step` have no other argument, and no step changes it (notes/assumptions/1.md). `cycles` and
`instret` are unsigned values below `2 ^ params.cntWidth` (R33, notes/assumptions/10.md). -/
structure State where
  x       : Vector Word 32
  pc      : Word
  mem     : Memory
  cycles  : Nat
  instret : Nat
  status  : Status
  params  : Params
  deriving DecidableEq, Repr

/-- Why the machine has no next step. Raised by `step` alone, never by an instruction's meaning: an instruction's
fatal error is a NEXT state with status FAULTED (R211, notes/assumptions/15.md). -/
inductive Fault where
  /-- `step` on a HALTED state: "The HALTED state has no step" (R201). Safe: the spec defines no step here. -/
  | halted
  /-- `step` on a FAULTED state: "no step is defined from it" (R211). Safe: the spec defines no step here. -/
  | faulted (f : FaultRecord)
  deriving DecidableEq, Repr

/-- Why an instruction has no meaning in the model. -/
inductive Refusal where
  /-- An arm of `exec` whose instruction has no meaning yet. No arm answers it: all 21 rows are modelled. Safe. -/
  | notModelled (mnemonic : String)
  deriving DecidableEq, Repr

/-- The outcome of a step or of an instruction's meaning. -/
abbrev Result := Host.Outcome State Fault Refusal

/-- The state right after reset (R40, spec/70_reset_and_hazards.md R240). The parameters are the reference values of
R8 (notes/assumptions/1.md to 11.md). -/
def State.reset : State where
  x := Vector.replicate 32 0
  pc := 0
  mem := Memory.zero
  cycles := 0
  instret := 0
  status := .running
  params := paramsRef

end Sys2Proof.Machine
end

