-- ==== Sys2Proof/Machine/Ops.lean ====
section
/-! DEFINITION. The shared operations: registers, the program counter, memory (spec/20_memory.md), and taking a fatal
error (spec/60_exceptions.md R211). -/

namespace Sys2Proof.Machine

/-! ### Memory (R50 to R58) -/

/-- The byte at an address: the first listed cell's, or 0 where none is listed (R50). -/
def byteAtCells : List Host.Cell → Nat → Byte
  | [], _ => 0
  | c :: rest, a => if c.1 = a then c.2 else byteAtCells rest a

/-- `mem[a]` (R50). -/
def Memory.byteAt (m : Memory) (a : Nat) : Byte := byteAtCells m.cells a

/-- Put a cell at its place in a list sorted by address. -/
def insertCell (a : Nat) (v : Byte) : List Host.Cell → List Host.Cell
  | [] => [(a, v)]
  | c :: rest => if a < c.1 then (a, v) :: c :: rest else c :: insertCell a v rest

/-- `mem[a] <- v`, keeping the canonical form: a 0 byte is not listed. -/
def Memory.setByte (m : Memory) (a : Nat) (v : Byte) : Memory :=
  let others := m.cells.filter fun c => c.1 != a
  ⟨if v = 0 then others else insertCell a v others⟩

/-- `InBounds(a, n)`: the whole range lies inside memory, on natural numbers (R51). -/
abbrev InBounds (a : Word) (n : Nat) : Prop := a.toNat + n ≤ memSize

/-- `MemRead(a, 1)`; none is the fault OutOfBounds (R52, R56). -/
def Memory.readByte (m : Memory) (a : Word) : Option Byte :=
  if InBounds a 1 then some (m.byteAt a.toNat) else none

/-- The big-endian word at a natural address (R53). -/
def Memory.wordAt (m : Memory) (a : Nat) : Word :=
  wordOfBytes (m.byteAt a) (m.byteAt (a + 1)) (m.byteAt (a + 2)) (m.byteAt (a + 3))

/-- `MemRead(a, 4)`, big-endian; none is the fault OutOfBounds (R53, R56). -/
def Memory.readWord (m : Memory) (a : Word) : Option Word :=
  if InBounds a 4 then some (m.wordAt a.toNat) else none

/-- The four bytes of a word, stored from a natural address up (R55). -/
def Memory.setWord (m : Memory) (a : Nat) (v : Word) : Memory :=
  (((m.setByte a (byteOfWord v 0)).setByte (a + 1) (byteOfWord v 1)).setByte (a + 2) (byteOfWord v 2)).setByte
    (a + 3) (byteOfWord v 3)

/-- `MemWrite(a, 1, v)`; none is the fault OutOfBounds, with nothing written (R54, R56). -/
def Memory.writeByte (m : Memory) (a : Word) (v : Byte) : Option Memory :=
  if InBounds a 1 then some (m.setByte a.toNat v) else none

/-- `MemWrite(a, 4, v)`, big-endian; none is the fault OutOfBounds, with nothing written (R55, R56). -/
def Memory.writeWord (m : Memory) (a : Word) (v : Word) : Option Memory :=
  if InBounds a 4 then some (m.setWord a.toNat v) else none

/-! ### Registers and the program counter (R21 to R29, R42) -/

/-- `x[r]` (R11, R42). No register is hardwired (R23). -/
def State.reg (s : State) (r : RegIdx) : Word := s.x[r.toNat]'(r.isLt)

/-- `x[r] <- v`; a write to x0 is kept (R23). -/
def State.setReg (s : State) (r : RegIdx) (v : Word) : State :=
  { s with x := s.x.set r.toNat v r.isLt }

/-- `pc <- t` (R11). -/
def State.setPc (s : State) (t : Word) : State := { s with pc := t }

/-- `pc + 4`, modulo 2^32: the fall-through address and the link value (R29, R161). -/
def State.nextPc (s : State) : Word := s.pc + 4

/-- `pc <- pc + 4` (R28). -/
def State.advance (s : State) : State := s.setPc s.nextPc

/-- `mem` replaced. -/
def State.setMem (s : State) (m : Memory) : State := { s with mem := m }

/-- `x[rd] <- v`, then `pc <- pc + 4`: the common end of R127, R145, R180 and R181. -/
def State.writeAndAdvance (s : State) (rd : RegIdx) (v : Word) : State := (s.setReg rd v).advance

/-! ### Run status (R31, R211) -/

/-- `status <- HALTED` (R11, R200). -/
def State.halt (s : State) : State := { s with status := .halted }

/-- `raise Fatal(kind, addr, pc)`: taking a fatal error. The record holds the PC of the instruction, which the pc
still is; nothing else changes, and control goes to no address (R184, R211, R213, R216). There is no return from it
(R217): only the host's reset leaves FAULTED. -/
def State.raiseFatal (s : State) (kind : FaultKind) (addr : Word) : State :=
  { s with status := .faulted ⟨kind, addr, s.pc⟩ }

/-- The numeric code of a fault kind (R212). DESIGN CHOICE of the spec (D21), notes/assumptions/19.md. -/
def FaultKind.code : FaultKind → Nat
  | .fetchOutOfBounds => 1
  | .misalignedFetch  => 2
  | .loadOutOfBounds  => 3
  | .storeOutOfBounds => 4
  | .invalidOpcode    => 5

end Sys2Proof.Machine
end

