-- ==== Sys2Proof/Machine/Account.lean ====
section
/-! DEFINITION. The account stage of a step: the cycle-counter accumulator (spec/40_step.md R103 to R105,
spec/10_state.md R33). -/

namespace Sys2Proof.Machine

/-- `BUCKET(m)` (R73; D3 for jalr, lw, lb and jal, notes/assumptions/12.md). -/
def bucketOf : Mnemonic → Bucket
  | .add  => .r
  | .sub  => .r
  | .xor  => .r
  | .and  => .r
  | .srl  => .r
  | .sra  => .r
  | .addi => .i
  | .subi => .i
  | .xori => .i
  | .slti => .i
  | .srai => .i
  | .jalr => .i
  | .beq  => .b
  | .bge  => .b
  | .blt  => .b
  | .jal  => .j
  | .lw   => .i
  | .lb   => .i
  | .sw   => .s
  | .sb   => .s

/-- `cost(b)` (R103): stores take `cost_S` and branches `cost_B` (C1). -/
def costOf (c : PerfConfig) : Bucket → Nat
  | .r => c.costR.toNat
  | .i => c.costI.toNat
  | .s => c.costS.toNat
  | .b => c.costB.toNat
  | .j => c.costJ.toNat

/-- `cycles <- cycles + n`, modulo 2^CNT_WIDTH (R33, R103). -/
def State.addCycles (s : State) (n : Nat) : State :=
  { s with cycles := (s.cycles + n) % 2 ^ s.params.cntWidth }

/-- `instret <- instret + 1`, modulo 2^CNT_WIDTH (R33, R103). -/
def State.retire (s : State) : State :=
  { s with instret := (s.instret + 1) % 2 ^ s.params.cntWidth }

/-- `account(d)` for an instruction (R103): the cost of its bucket and one more retired. HALT has no bucket, and is
counted only under `COUNT_HALT` (R104; D5, notes/assumptions/4.md). -/
def State.account (s : State) (i : Instr) : State :=
  match i.mnemonic? with
  | some m => (s.addCycles (costOf s.params.cfg (bucketOf m))).retire
  | none   => if s.params.countHalt then s.retire else s

/-- `account(d)` for INVALID: cost 0, and one more retired (R103). -/
def State.accountInvalid (s : State) : State := s.retire

end Sys2Proof.Machine
end

