-- ==== Sys2Proof/Machine/Flags.lean ====
section
/-! DEFINITION. Conditions. The block has no status flag, condition code or predicate register (spec/10_state.md R35):
a branch compares two register values directly, and these are its comparisons. -/

namespace Sys2Proof.Machine

/-- `x[rs1] = x[rs2]` (R163). -/
def condEq (a b : Word) : Bool := a == b

/-- `s32(x[rs1]) >= s32(x[rs2])`, signed (R164). -/
def condGe (a b : Word) : Bool := decide (b.toInt ≤ a.toInt)

/-- `s32(x[rs1]) < s32(x[rs2])`, signed (R165). -/
def condLt (a b : Word) : Bool := decide (a.toInt < b.toInt)

/-- `if rs1 < imm then 1 else 0`, on the register's NUMBER and the immediate, both natural (R143). -/
def indexBelow (rs1 : RegIdx) (imm : Nat) : Word := if rs1.toNat < imm then 1 else 0

end Sys2Proof.Machine
end

