-- ==== Sys2Proof/Machine/Operands.lean ====
section
/-! DEFINITION. Operand forms: the immediate, the shift amount and the shifts, the effective address and the branch
target (spec/30_encoding.md R80, R81). There is no other operand form or addressing mode (R81). -/

namespace Sys2Proof.Machine

/-- `imm32 := zext_32(imm)`: no immediate is sign-extended (R12, R80). -/
def imm32 (imm : Nat) : Word := BitVec.ofNat 32 imm

/-- `shamt(v)` (R126), by `SHAMT_MODE` (D7, notes/assumptions/6.md). 32 means "shift everything out". -/
def shamt (mode : ShamtMode) (v : Word) : Nat :=
  match mode with
  | .low5     => v.toNat % 32
  | .saturate => min v.toNat 32

/-- The logical right shift of R124: zeros fill from the top, and a shift of 32 gives 0. -/
def shiftRightLogical (v : Word) (n : Nat) : Word :=
  if n < 32 then v >>> n else 0

/-- The arithmetic right shift of R125 and R144: copies of bit 31 fill from the top, and a shift of 32 leaves only
them. -/
def shiftRightArith (v : Word) (n : Nat) : Word :=
  if n < 32 then v.sshiftRight n else if v.toInt < 0 then 0xFFFFFFFF else 0

/-- `ea := x[rs1] + imm32`, modulo 2^32 (R61; D9, notes/assumptions/13.md). -/
def effectiveAddress (s : State) (rs1 : RegIdx) (imm : Nat) : Word := s.reg rs1 + imm32 imm

/-- `pc + imm32 * 2`, the target of a taken branch and of jal, modulo 2^32 (R162, R167). -/
def halfwordTarget (s : State) (imm : Nat) : Word := s.pc + imm32 imm * 2

/-- `lb`'s widening of a byte, by `LB_EXT` (R181; D8, notes/assumptions/7.md). -/
def widenByte (ext : LbExt) (b : Byte) : Word :=
  match ext with
  | .zero => b.zeroExtend 32
  | .sign => b.signExtend 32

end Sys2Proof.Machine
end

