-- ==== Sys2Proof/Machine/Control.lean ====
section
/-! DEFINITION. Control transfer (spec/43_control_transfer.md R160 to R169). No target is checked here: the next fetch
catches one that is out of bounds or misaligned (R29, R100, R101). -/

namespace Sys2Proof.Machine

/-- jalr (R160), by `JALR_ORDER` (D12, notes/assumptions/9.md). Bit 0 of the target is not cleared. -/
def execJalr (rd rs1 : RegIdx) (imm : Nat) (s : State) : Result :=
  match s.params.jalrOrder with
  | .writeFirst =>
    let linked := s.setReg rd s.nextPc
    .next (linked.setPc (linked.reg rs1 + imm32 imm))
  | .readFirst =>
    let target := s.reg rs1 + imm32 imm
    .next ((s.setReg rd s.nextPc).setPc target)

/-- The target rule the three branches share (R162). -/
def branchIf (taken : Bool) (imm : Nat) (s : State) : Result :=
  .next (s.setPc (if taken then halfwordTarget s imm else s.nextPc))

/-- beq (R163). -/
def execBeq (rs1 rs2 : RegIdx) (imm : Nat) (s : State) : Result :=
  branchIf (condEq (s.reg rs1) (s.reg rs2)) imm s

/-- bge, signed (R164). -/
def execBge (rs1 rs2 : RegIdx) (imm : Nat) (s : State) : Result :=
  branchIf (condGe (s.reg rs1) (s.reg rs2)) imm s

/-- blt, signed (R165). -/
def execBlt (rs1 rs2 : RegIdx) (imm : Nat) (s : State) : Result :=
  branchIf (condLt (s.reg rs1) (s.reg rs2)) imm s

/-- jal (R167): the target uses the pc of this jal. -/
def execJal (rd : RegIdx) (imm : Nat) (s : State) : Result :=
  .next ((s.setReg rd s.nextPc).setPc (halfwordTarget s imm))

end Sys2Proof.Machine
end

