-- ==== Sys2Proof/Machine/Immediate.lean ====
section
/-! DEFINITION. Immediate arithmetic and logical instructions (spec/42_immediate.md R140 to R145). -/

namespace Sys2Proof.Machine

/-- The template of R145: `x[rs1]` is read before `x[rd]` is written, the immediate is zero-extended, and the pc
advances by 4. -/
def regImm (f : Word → Word → Word) (rd rs1 : RegIdx) (imm : Nat) (s : State) : Result :=
  .next (s.writeAndAdvance rd (f (s.reg rs1) (imm32 imm)))

/-- addi (R140): modulo 2^32. -/
def execAddi (rd rs1 : RegIdx) (imm : Nat) (s : State) : Result := regImm (fun a b => a + b) rd rs1 imm s

/-- subi (R141): modulo 2^32. -/
def execSubi (rd rs1 : RegIdx) (imm : Nat) (s : State) : Result := regImm (fun a b => a - b) rd rs1 imm s

/-- xori (R142): bits 31..12 are never changed. -/
def execXori (rd rs1 : RegIdx) (imm : Nat) (s : State) : Result := regImm (fun a b => a ^^^ b) rd rs1 imm s

/-- slti (R143): compares the register's number, not its value, and reads no register. -/
def execSlti (rd rs1 : RegIdx) (imm : Nat) (s : State) : Result :=
  .next (s.writeAndAdvance rd (indexBelow rs1 imm))

/-- srai (R144): the whole immediate is the shift amount, through `shamt`. -/
def execSrai (rd rs1 : RegIdx) (imm : Nat) (s : State) : Result :=
  regImm (fun a b => shiftRightArith a (shamt s.params.shamtMode b)) rd rs1 imm s

end Sys2Proof.Machine
end

