-- ==== Sys2Proof/Machine/LoadStore.lean ====
section
/-! DEFINITION. Loads and stores (spec/44_load_store.md R180 to R185). An access out of bounds takes the fatal error
of R184, and then no register, byte or pc changes. -/

namespace Sys2Proof.Machine

/-- The end of a load: write `x[rd]` and advance, or the fatal error LoadOutOfBounds (R180, R181, R184). -/
def finishLoad (rd : RegIdx) (ea : Word) (v : Option Word) (s : State) : Result :=
  match v with
  | some w => .next (s.writeAndAdvance rd w)
  | none   => .next (s.raiseFatal .loadOutOfBounds ea)

/-- The end of a store: the new memory and advance, or the fatal error StoreOutOfBounds (R182, R183, R184). -/
def finishStore (ea : Word) (m : Option Memory) (s : State) : Result :=
  match m with
  | some m' => .next (s.setMem m').advance
  | none    => .next (s.raiseFatal .storeOutOfBounds ea)

/-- lw (R180): big-endian, no alignment needed. -/
def execLw (rd rs1 : RegIdx) (imm : Nat) (s : State) : Result :=
  let ea := effectiveAddress s rs1 imm
  finishLoad rd ea (s.mem.readWord ea) s

/-- lb (R181): the byte is widened by `LB_EXT`. -/
def execLb (rd rs1 : RegIdx) (imm : Nat) (s : State) : Result :=
  let ea := effectiveAddress s rs1 imm
  finishLoad rd ea ((s.mem.readByte ea).map (widenByte s.params.lbExt)) s

/-- sw (R182): big-endian, no alignment needed. -/
def execSw (rs1 rs2 : RegIdx) (imm : Nat) (s : State) : Result :=
  let ea := effectiveAddress s rs1 imm
  finishStore ea (s.mem.writeWord ea (s.reg rs2)) s

/-- sb (R183): the low 8 bits of `x[rs2]`. -/
def execSb (rs1 rs2 : RegIdx) (imm : Nat) (s : State) : Result :=
  let ea := effectiveAddress s rs1 imm
  finishStore ea (s.mem.writeByte ea ((s.reg rs2).extractLsb' 0 8)) s

end Sys2Proof.Machine
end

