-- ==== Sys2Proof/Machine/RegReg.lean ====
section
/-! DEFINITION. Register-register arithmetic and logical instructions (spec/41_register_register.md R120 to R127). -/

namespace Sys2Proof.Machine

/-- The template of R127: both sources are read before `x[rd]` is written, and the pc advances by 4. -/
def regReg (f : Word → Word → Word) (rd rs1 rs2 : RegIdx) (s : State) : Result :=
  .next (s.writeAndAdvance rd (f (s.reg rs1) (s.reg rs2)))

/-- add (R120): modulo 2^32. -/
def execAdd (rd rs1 rs2 : RegIdx) (s : State) : Result := regReg (fun a b => a + b) rd rs1 rs2 s

/-- sub (R121): modulo 2^32. -/
def execSub (rd rs1 rs2 : RegIdx) (s : State) : Result := regReg (fun a b => a - b) rd rs1 rs2 s

/-- xor (R122). -/
def execXor (rd rs1 rs2 : RegIdx) (s : State) : Result := regReg (fun a b => a ^^^ b) rd rs1 rs2 s

/-- and (R123). -/
def execAnd (rd rs1 rs2 : RegIdx) (s : State) : Result := regReg (fun a b => a &&& b) rd rs1 rs2 s

/-- srl (R124): the shift amount is the value of `x[rs2]` through `shamt`. -/
def execSrl (rd rs1 rs2 : RegIdx) (s : State) : Result :=
  regReg (fun a b => shiftRightLogical a (shamt s.params.shamtMode b)) rd rs1 rs2 s

/-- sra (R125): the shift amount is the value of `x[rs2]` through `shamt`. -/
def execSra (rd rs1 rs2 : RegIdx) (s : State) : Result :=
  regReg (fun a b => shiftRightArith a (shamt s.params.shamtMode b)) rd rs1 rs2 s

end Sys2Proof.Machine
end

