-- ==== Sys2Proof/Machine/System.lean ====
section
/-! DEFINITION. HALT and INVALID (spec/45_halt_invalid.md R200 to R203). -/

namespace Sys2Proof.Machine

/-- HALT (R200): no register or memory effect, and the pc stays at the halt word (R201; D23, notes/assumptions/16.md). -/
def execHalt (s : State) : Result := .next s.halt

/-- INVALID (R202), by `INVALID_POLICY` (D6, notes/assumptions/5.md). It is no row of the opcode table, so `step`
calls it where the decoder rejects the word (notes/assumptions/20.md). -/
def execInvalid (s : State) : Result :=
  match s.params.invalidPolicy with
  | .spin  => .next s
  | .fault => .next (s.raiseFatal .invalidOpcode s.pc)

end Sys2Proof.Machine
end

