-- ==== Sys2Proof/Machine/Fetch.lean ====
section
/-! DEFINITION. The fetch stage of a step (spec/40_step.md R100, R101). -/

namespace Sys2Proof.Machine

/-- `u32(pc) mod 4 = 0` (R101). -/
abbrev Aligned (a : Word) : Prop := a.toNat % 4 = 0

/-- Whether a fetch at the pc takes place: in bounds, and aligned unless `MISALIGNED_FETCH = FETCH` (R100, R101). -/
abbrev State.Fetchable (s : State) : Prop :=
  InBounds s.pc 4 ∧ (Aligned s.pc ∨ s.params.misalignedFetch = .fetch)

/-- The fetched word, or the kind of the fetch fault. The bounds test comes before the alignment test (R101, R214;
D22, notes/assumptions/19.md). -/
def State.fetch (s : State) : Except FaultKind Word :=
  match s.mem.readWord s.pc with
  | none   => .error .fetchOutOfBounds
  | some w => if s.Fetchable then .ok w else .error .misalignedFetch

end Sys2Proof.Machine
end

