-- ==== Sys2Proof/Machine/Step.lean ====
section
/-! DEFINITION. One step (spec/40_step.md R107): fetch, decode, account, dispatch; and how the host places an
instruction for the next step. -/

namespace Sys2Proof.Machine

/-- Decode, account and dispatch of a fetched word (R102 to R106). -/
def runWord (s : State) (w : Word) : Result :=
  match decodeWord s.params w with
  | .ok i    => exec i (s.account i)
  | .error _ => execInvalid s.accountInvalid

/-- The step of a RUNNING state (R107). A fetch fault comes before accounting and is not counted (R105). -/
def runningStep (s : State) : Result :=
  match s.fetch with
  | .error kind => .next (s.raiseFatal kind s.pc)
  | .ok w       => runWord s w

/-- One step. "Only a RUNNING state has a step" (R31): HALTED and FAULTED have none (R201, R211). -/
def step (s : State) : Host.Outcome State Fault Refusal :=
  match s.status with
  | .running   => runningStep s
  | .halted    => .fault .halted
  | .faulted f => .fault (.faulted f)

/-- The state whose very next step fetches and runs the word `w`: the word stands in memory at the pc, as the host's
load would leave it (R242). A state the fetch would not accept is first made RUNNING, with a pc it can fetch at; on
a RUNNING state with such a pc only the four bytes change (notes/assumptions/21.md). -/
def State.withFetchWord (s : State) (nbits w : Nat) : State :=
  let pc := if s.Fetchable then s.pc else 0
  { s with
    pc := pc
    status := .running
    mem := s.mem.setWord pc.toNat (BitVec.ofNat 32 (w % 2 ^ nbits)) }

end Sys2Proof.Machine
end

