-- ==== Sys2Proof/Machine/HostPort.lean ====
section
/-! DEFINITION. The host's side of the block: what it may do and when (spec/10_state.md R44, spec/70_reset_and_hazards.md
R242, R243), what it reads (R46), the execution time and the comparative speedup (spec/60_exceptions.md R221, R222). -/

namespace Sys2Proof.Machine

/-- The block under its host: its state, and whether it has stepped since its last reset. R44's "before the first
step after reset" needs that bit, which no rule names as state (notes/assumptions/23.md). -/
structure Session where
  block   : State
  stepped : Bool
  deriving DecidableEq, Repr

/-- What the host can do to the block through the interface of R44. Nothing else: registers, the pc and the counters
change only by reset. -/
inductive HostAction where
  /-- Reset the block (R240). -/
  | reset
  /-- Write bytes of the program image, each at its address (R242). -/
  | load (image : List Host.Cell)
  /-- Supply `cfg` (R36). -/
  | supply (cfg : PerfConfig)
  /-- Step the block (R45). -/
  | step
  deriving DecidableEq, Repr

/-- A session right after reset, under the reference parameters. -/
def Session.reset : Session := ⟨State.reset, false⟩

/-- R240, under the parameters the block has: `OPC` is fixed before any run (R244) and reset does not touch `cfg`
(R40). -/
def State.hostReset (s : State) : State := { State.reset with params := s.params }

/-- The image's bytes written in order (R242). -/
def Memory.loadImage (m : Memory) : List Host.Cell → Memory
  | [] => m
  | c :: rest => (m.setByte c.1 c.2).loadImage rest

/-- While status is not RUNNING, or before the first step after reset, the host may reset, load and supply (R44). -/
def Session.hostMayAct (t : Session) : Bool := !t.stepped || t.block.status != .running

/-- The host's action, or none where R44 does not allow it, where an address is outside memory (R63), where the
configuration is not legal (R36; D14), or where there is no step (R31). A block that is RUNNING after its first step
is only stepped (R44). -/
def Session.perform (t : Session) : HostAction → Option Session
  | .reset => if t.hostMayAct then some ⟨t.block.hostReset, false⟩ else none
  | .load image =>
    if t.hostMayAct ∧ ∀ c ∈ image, c.1 < memSize then
      some { t with block := t.block.setMem (t.block.mem.loadImage image) }
    else none
  | .supply cfg =>
    if t.hostMayAct ∧ cfg.legal then
      some { t with block := { t.block with params := { t.block.params with cfg := cfg } } }
    else none
  | .step =>
    match Sys2Proof.Machine.step t.block with
    | .next s    => some ⟨s, true⟩
    | .fault _   => none
    | .refused _ => none

/-- The hang of R203: RUNNING, on an INVALID word under `INVALID_POLICY = SPIN`. Every later step repeats it. -/
abbrev State.Spins (s : State) : Prop :=
  s.status = .running ∧ s.Fetchable ∧ classify s.params (s.mem.wordAt s.pc.toNat) = .invalid ∧
    s.params.invalidPolicy = .spin

/-- "Only the host can end it, by resetting the block" (R203): the end of that hang, and of nothing else. It gives the
run up, and is no act of the interface of R44 (notes/assumptions/23.md). -/
def Session.endHang (t : Session) : Option Session :=
  if t.block.Spins then some ⟨t.block.hostReset, false⟩ else none

/-- `time_s := cycles / (freq_mhz * 1_000_000)`, an exact rational number of seconds; none at frequency 0, which
R221 excludes. -/
def State.executionTime (s : State) : Option Rat :=
  if s.params.cfg.legal then some ((s.cycles : Rat) / ((s.params.cfg.freqMhz * 1000000 : Nat) : Rat)) else none

/-- `speedup := max(time_A, time_B) / min(time_A, time_B)` (R222); none where a time is zero, since the ratio is then
undefined (spec/93_implementation_defined.md row 17). -/
def speedup (timeA timeB : Rat) : Option Rat :=
  if timeA = 0 ∨ timeB = 0 then none else some (max timeA timeB / min timeA timeB)

/-- What the host reads (R46). -/
structure Observation where
  status  : Status
  x       : Vector Word 32
  cycles  : Nat
  instret : Nat
  time    : Option Rat
  deriving DecidableEq, Repr

/-- The observation interface (R46). -/
def State.observe (s : State) : Observation :=
  ⟨s.status, s.x, s.cycles, s.instret, s.executionTime⟩

end Sys2Proof.Machine
end

