-- ==== Sys2Proof/Safety.lean ====
section
/-! DEFINITION. The terms claims use: what a step leaves unchanged, the invariant of a state, and what counts as a safe
run. -/

namespace Sys2Proof.Machine

/-! ### Frames -/

/-- Every register but `rd` reads as before. -/
def RegsKeptBut (rd : RegIdx) (s t : State) : Prop := ∀ r, r ≠ rd → t.reg r = s.reg r

/-- Every register reads as before. -/
def RegsKept (s t : State) : Prop := ∀ r, t.reg r = s.reg r

/-- Every byte of memory reads as before. -/
def MemKept (s t : State) : Prop := ∀ a, t.mem.byteAt a = s.mem.byteAt a

/-- Every byte of memory outside the `n` bytes from `a` up reads as before. -/
def MemKeptBut (a n : Nat) (s t : State) : Prop :=
  ∀ b, (b < a ∨ a + n ≤ b) → t.mem.byteAt b = s.mem.byteAt b

/-- Both counters are as before. -/
def CountersKept (s t : State) : Prop := t.cycles = s.cycles ∧ t.instret = s.instret

/-- The run status and the parameters are as before. -/
def StatusAndParamsKept (s t : State) : Prop := t.status = s.status ∧ t.params = s.params

/-- What an instruction that writes one register leaves unchanged. The pc may change. -/
def FrameOfRegWrite (rd : RegIdx) (s t : State) : Prop :=
  RegsKeptBut rd s t ∧ MemKept s t ∧ CountersKept s t ∧ StatusAndParamsKept s t

/-- What a branch leaves unchanged. The pc may change. -/
def FrameOfBranch (s t : State) : Prop :=
  RegsKept s t ∧ MemKept s t ∧ CountersKept s t ∧ StatusAndParamsKept s t

/-- What a store of `n` bytes at `a` leaves unchanged. The pc may change. -/
def FrameOfStore (a n : Nat) (s t : State) : Prop :=
  RegsKept s t ∧ MemKeptBut a n s t ∧ CountersKept s t ∧ StatusAndParamsKept s t

/-- What taking a fatal error leaves unchanged: all but the status (R184, R213). -/
def FrameOfFatal (s t : State) : Prop :=
  RegsKept s t ∧ MemKept s t ∧ t.pc = s.pc ∧ t.params = s.params

end Sys2Proof.Machine

namespace Sys2Proof

/-! ### What an instruction reads and writes (R25) -/

/-- The one register an instruction writes, or none (R25). -/
def Instr.dest? : Instr → Option RegIdx
  | .add rd _ _ | .sub rd _ _ | .xor rd _ _ | .and rd _ _ | .srl rd _ _ | .sra rd _ _ => some rd
  | .addi rd _ _ | .subi rd _ _ | .xori rd _ _ | .slti rd _ _ | .srai rd _ _           => some rd
  | .jalr rd _ _ | .jal rd _ | .lw rd _ _ | .lb rd _ _                                 => some rd
  | .beq _ _ _ | .bge _ _ _ | .blt _ _ _ | .sw _ _ _ | .sb _ _ _ | .halt               => none

/-- The registers whose VALUES an instruction reads; slti reads none (R25, R143). -/
def Instr.sources : Instr → List RegIdx
  | .add _ rs1 rs2 | .sub _ rs1 rs2 | .xor _ rs1 rs2 | .and _ rs1 rs2 | .srl _ rs1 rs2 | .sra _ rs1 rs2 => [rs1, rs2]
  | .beq rs1 rs2 _ | .bge rs1 rs2 _ | .blt rs1 rs2 _ | .sw rs1 rs2 _ | .sb rs1 rs2 _                    => [rs1, rs2]
  | .addi _ rs1 _ | .subi _ rs1 _ | .xori _ rs1 _ | .srai _ rs1 _ | .jalr _ rs1 _                       => [rs1]
  | .lw _ rs1 _ | .lb _ rs1 _                                                                           => [rs1]
  | .slti _ _ _ | .jal _ _ | .halt                                                                      => []

/-- The conditional branches (R162). -/
def Instr.isBranch : Instr → Bool
  | .beq _ _ _ | .bge _ _ _ | .blt _ _ _ => true
  | .add _ _ _ | .sub _ _ _ | .xor _ _ _ | .and _ _ _ | .srl _ _ _ | .sra _ _ _ => false
  | .addi _ _ _ | .subi _ _ _ | .xori _ _ _ | .slti _ _ _ | .srai _ _ _ => false
  | .jalr _ _ _ | .jal _ _ | .lw _ _ _ | .lb _ _ _ | .sw _ _ _ | .sb _ _ _ | .halt => false

/-- The kind of fatal error an instruction's access takes out of bounds (R184); none where it makes no access. -/
def Instr.accessFault? : Instr → Option Machine.FaultKind
  | .lw _ _ _ | .lb _ _ _ => some .loadOutOfBounds
  | .sw _ _ _ | .sb _ _ _ => some .storeOutOfBounds
  | .add _ _ _ | .sub _ _ _ | .xor _ _ _ | .and _ _ _ | .srl _ _ _ | .sra _ _ _ => none
  | .addi _ _ _ | .subi _ _ _ | .xori _ _ _ | .slti _ _ _ | .srai _ _ _ => none
  | .jalr _ _ _ | .beq _ _ _ | .bge _ _ _ | .blt _ _ _ | .jal _ _ | .halt => none

end Sys2Proof

namespace Sys2Proof.Machine

/-- The memory access an instruction makes in dispatch: its address and its width in bytes (R60, R61). -/
def accessOf (s : State) : Instr → Option (Word × Nat)
  | .lw _ rs1 imm | .sw rs1 _ imm => some (effectiveAddress s rs1 imm, 4)
  | .lb _ rs1 imm | .sb rs1 _ imm => some (effectiveAddress s rs1 imm, 1)
  | .add _ _ _ | .sub _ _ _ | .xor _ _ _ | .and _ _ _ | .srl _ _ _ | .sra _ _ _ => none
  | .addi _ _ _ | .subi _ _ _ | .xori _ _ _ | .slti _ _ _ | .srai _ _ _ => none
  | .jalr _ _ _ | .beq _ _ _ | .bge _ _ _ | .blt _ _ _ | .jal _ _ | .halt => none

/-- The words of a mnemonic are exactly read as `f` says: a word whose opcode is the mnemonic's, under every legal
choice of the parameters, is the instruction `f` builds from its bits. -/
def DecodesAs (m : Mnemonic) (f : Word → Instr) : Prop :=
  ∀ (p : Params) (w : Word), p.legal → w.extractLsb' 0 7 = p.opc.of m → decodeWord p w = .ok (f w)

/-! ### The invariant -/

/-- What a terminal status says of the state it ended in (R200, R201, R211, R212). -/
def State.StatusFits (s : State) : Prop :=
  match s.status with
  | .running => True
  | .halted  => s.Fetchable ∧ isHaltWord s.params (s.mem.wordAt s.pc.toNat) = true
  | .faulted f =>
    f.pc = s.pc ∧
    match f.kind with
    | .fetchOutOfBounds => f.addr = s.pc ∧ ¬ InBounds s.pc 4
    | .misalignedFetch  =>
      f.addr = s.pc ∧ InBounds s.pc 4 ∧ ¬ Aligned s.pc ∧ s.params.misalignedFetch = .fault
    | .loadOutOfBounds | .storeOutOfBounds =>
      s.Fetchable ∧ ∃ i n, decodeWord s.params (s.mem.wordAt s.pc.toNat) = .ok i ∧
        i.accessFault? = some f.kind ∧ accessOf s i = some (f.addr, n) ∧ ¬ InBounds f.addr n
    | .invalidOpcode    =>
      f.addr = s.pc ∧ s.Fetchable ∧ s.params.invalidPolicy = .fault ∧
        classify s.params (s.mem.wordAt s.pc.toNat) = .invalid

/-- What the data of a state keeps: memory in canonical form, both counters within CNT_WIDTH bits (R33), legal
parameters (R8, R36, R83). -/
def State.DataInv (s : State) : Prop :=
  s.mem.wf ∧ s.cycles < 2 ^ s.params.cntWidth ∧ s.instret < 2 ^ s.params.cntWidth ∧ s.params.legal

/-- The invariant of the block: its data, and a terminal status that fits the state. -/
def State.Inv (s : State) : Prop := s.DataInv ∧ s.StatusFits

/-! ### Runs -/

/-- `t` is reached from `s` by steps. -/
inductive Reaches : State → State → Prop where
  | refl (s : State) : Reaches s s
  | step {s t u : State} : Reaches s t → step t = .next u → Reaches s u

/-- A state with no fatal error (R109, R211). -/
def State.Safe (s : State) : Prop := ∀ f, s.status ≠ .faulted f

/-- A safe run: no state that is reached carries a fatal error. -/
def SafeRun (s : State) : Prop := ∀ t, Reaches s t → t.Safe

/-- Two states that differ at most in the performance configuration and the two counters (R34, R248). -/
def EqualButCounters (s t : State) : Prop :=
  { s with cycles := t.cycles, instret := t.instret, params := { s.params with cfg := t.params.cfg } } = t

end Sys2Proof.Machine
end

