-- ==== Sys2Proof/Certificates/Slice0/Obligations.lean ====
section
/-! DEFINITION. The statements for the provers, by the rules of spec/. A statement that quantifies over the parameters
of R8 chooses no value of an open one; one that rests on a choice of the spec's own names it. -/

open Sys2Proof Sys2Proof.Machine

/-! ### Encoding and decoding (spec/30_encoding.md) -/

/-- R87: for every well-formed instruction, under every legal parameter choice, the encoder gives a word and the
decoder reads that instruction back. Rests on the spec's own D17 (the encoder's range), log 18. -/
def Obligations.EncodeThenDecodeGivesTheInstruction : Prop :=
  ∀ (p : Params) (i : Instr), p.legal → i.wellFormed = true →
    ∃ w, encode p i = some w ∧ decodeWord p w = .ok i

/-- R87's converse, an inference the spec marks as its own: encoding what was decoded gives the word back exactly when
every `-` bit of its layout is 0. -/
def Obligations.DecodeThenEncodeGivesTheWordIffUnusedBitsAreZero : Prop :=
  ∀ (p : Params) (w : Word) (i : Instr), decodeWord p w = .ok i → i ≠ .halt →
    (encode p i = some w ↔ w &&& ignoredMask i.cls = 0)

/-- R82: two words that differ only in the `-` bits of the first one's layout decode alike. Rests on the spec's own D18,
log 17. -/
def Obligations.UnusedBitsDoNotChangeDecoding : Prop :=
  ∀ (p : Params) (w w' : Word), p.legal → classify p w ≠ .halt → classify p w ≠ .invalid →
    w &&& ~~~(ignoredMask (classify p w)) = w' &&& ~~~(ignoredMask (classify p w)) →
    decodeWord p w' = decodeWord p w

/-- R75 to R77, R102: what the decoder gives fits its layout, and its class is the class of the word. The classes of
jalr, lw, lb and jal are the spec's own D3, log 12. -/
def Obligations.DecodedInstructionFitsTheClassOfItsWord : Prop :=
  ∀ (p : Params) (w : Word) (i : Instr), decodeWord p w = .ok i → i.wellFormed = true ∧ i.cls = classify p w

/-- R72: the class function, for both values of `HALT_MATCH` (D4) and every legal `OPC` (D1). -/
def Obligations.WordIsClassifiedByHaltTestThenOpcode : Prop :=
  ∀ (p : Params) (w : Word), p.legal →
    let isHalt := (p.haltMatch = .fullWord ∧ w = 0xFFFFFFFF) ∨
      (p.haltMatch = .opcodeOnly ∧ w.extractLsb' 0 7 = 0b1111111)
    (isHalt → classify p w = .halt ∧ decodeWord p w = .ok .halt) ∧
    (¬ isHalt → ∀ m, p.opc.of m = w.extractLsb' 0 7 →
      classify p w = m.cls ∧ ∃ i, decodeWord p w = .ok i ∧ i.mnemonic? = some m) ∧
    (¬ isHalt → (∀ m, p.opc.of m ≠ w.extractLsb' 0 7) →
      classify p w = .invalid ∧ decodeWord p w = .error (.invalidOpcode (w.extractLsb' 0 7)))

/-- R86: the encoder refuses exactly the fields out of range. The spec's own D17, log 18. -/
def Obligations.EncoderRefusesExactlyFieldsOutOfRange : Prop :=
  (∀ (p : Params) (i : Instr), encode p i = none ↔ i.wellFormed = false) ∧
  ∀ (o : Opcode) (a b c : Nat),
    (encodeR o a b c = none ↔ ¬ (a < 32 ∧ b < 32 ∧ c < 32)) ∧
    (encodeI o a b c = none ↔ ¬ (a < 32 ∧ b < 32 ∧ c < 4096)) ∧
    (encodeSB o a b c = none ↔ ¬ (a < 32 ∧ b < 32 ∧ c < 4096)) ∧
    (encodeJ o a b = none ↔ ¬ (a < 32 ∧ b < 1048576))

/-- Words of the spec's vectors under OPC_ref (the spec's own D1, log 2), each written out there, decode to their
listings. -/
def Obligations.SampleWordsDecodeToTheirListings : Prop :=
  decodeWord paramsRef 0x00208181 = .ok (.add 3 1 2) ∧
  decodeWord paramsRef 0xFFFFFF85 = .ok (.srl 31 31 31) ∧
  decodeWord paramsRef 0xFFF08289 = .ok (.xori 5 1 0xFFF) ∧
  decodeWord paramsRef 0x0081008C = .ok (.jalr 1 2 8) ∧
  decodeWord paramsRef 0xFE208F8D = .ok (.beq 1 2 0xFFF) ∧
  decodeWord paramsRef 0xFFFFF010 = .ok (.jal 0 0xFFFFF) ∧
  decodeWord paramsRef 0x01010291 = .ok (.lw 5 2 0x10) ∧
  decodeWord paramsRef 0x00310994 = .ok (.sb 2 3 0x13) ∧
  decodeWord paramsRef 0xFFFFFFFF = .ok .halt

/-- R84, R85: under the reference parameters opcode 0x00 and opcodes 0x15..0x7F are INVALID, but for the halt word. Rests
on OPC_ref and FULL_WORD, the spec's own D1 and D4, logs 2 and 3. -/
def Obligations.UnassignedReferenceOpcodesAreInvalid : Prop :=
  ∀ w : Word, w ≠ 0xFFFFFFFF → (w.extractLsb' 0 7 = 0 ∨ 0x15 ≤ (w.extractLsb' 0 7).toNat) →
    classify paramsRef w = .invalid ∧ decodeWord paramsRef w = .error (.invalidOpcode (w.extractLsb' 0 7))

/-! ### The step (spec/40_step.md) -/

/-- R102, R107: where the four bytes at the pc decode to an instruction, the step is that instruction's meaning on
the accounted state, which differs in its counters alone. -/
def Obligations.StepRunsTheDecodedInstruction : Prop :=
  ∀ (s : State) (i : Instr), s.status = .running → s.Fetchable →
    decodeBytes s.params [s.mem.byteAt s.pc.toNat, s.mem.byteAt (s.pc.toNat + 1), s.mem.byteAt (s.pc.toNat + 2),
      s.mem.byteAt (s.pc.toNat + 3)] = .ok (i, []) →
    step s = exec i (s.account i) ∧ RegsKept s (s.account i) ∧ MemKept s (s.account i) ∧
      (s.account i).pc = s.pc ∧ StatusAndParamsKept s (s.account i)

/-- R202, with R103's account of INVALID: cost 0, one more retired, and by `INVALID_POLICY` (D6) a spin or a fault. The
fault's record, and that nothing but the count changes with it, are the spec's own D21, log 19. -/
def Obligations.InvalidWordSpinsOrFaults : Prop :=
  ∀ s : State, s.status = .running → s.Fetchable → classify s.params (s.mem.wordAt s.pc.toNat) = .invalid →
    ∃ t, step s = .next t ∧ RegsKept s t ∧ MemKept s t ∧ t.pc = s.pc ∧ t.params = s.params ∧
      t.cycles = s.cycles ∧ t.instret = (s.instret + 1) % 2 ^ s.params.cntWidth ∧
      (s.params.invalidPolicy = .spin → t.status = .running) ∧
      (s.params.invalidPolicy = .fault → t.status = .faulted ⟨.invalidOpcode, s.pc, s.pc⟩)

namespace Sys2Proof.Machine

/-- The cost of each instruction as R73's BUCKET column, R103 and R248 give it, written out from the spec. -/
def specCost (c : PerfConfig) : Instr → Nat
  | .add _ _ _ | .sub _ _ _ | .xor _ _ _ | .and _ _ _ | .srl _ _ _ | .sra _ _ _ => c.costR.toNat
  | .addi _ _ _ | .subi _ _ _ | .xori _ _ _ | .slti _ _ _ | .srai _ _ _         => c.costI.toNat
  | .jalr _ _ _ | .lw _ _ _ | .lb _ _ _                                         => c.costI.toNat
  | .sw _ _ _ | .sb _ _ _                                                       => c.costS.toNat
  | .beq _ _ _ | .bge _ _ _ | .blt _ _ _                                        => c.costB.toNat
  | .jal _ _                                                                    => c.costJ.toNat
  | .halt                                                                       => 0

end Sys2Proof.Machine

/-- R103, R105, R127, R145, R166, R248: a step that decodes an instruction other than HALT adds its bucket's cost to
`cycles` and one to `instret`, whether the instruction completes or takes a fatal error, and whatever the data. The
buckets of jalr, lw, lb and jal are the spec's own D3, log 12. -/
def Obligations.StepAddsTheBucketCostAndOneRetired : Prop :=
  ∀ (s t : State) (i : Instr), s.status = .running → s.Fetchable →
    decodeWord s.params (s.mem.wordAt s.pc.toNat) = .ok i → i ≠ .halt → step s = .next t →
    t.cycles = (s.cycles + specCost s.params.cfg i) % 2 ^ s.params.cntWidth ∧
    t.instret = (s.instret + 1) % 2 ^ s.params.cntWidth

/-- R104: HALT adds 0 to `cycles`, and one to `instret` exactly under `COUNT_HALT` (D5). -/
def Obligations.HaltIsRetiredOnlyUnderCountHalt : Prop :=
  ∀ s : State, s.status = .running → s.Fetchable →
    decodeWord s.params (s.mem.wordAt s.pc.toNat) = .ok .halt →
    ∃ t, step s = .next t ∧ t.cycles = s.cycles ∧
      t.instret = if s.params.countHalt then (s.instret + 1) % 2 ^ s.params.cntWidth else s.instret

/-- R100: a fetch out of bounds sets FAULTED(FetchOutOfBounds, pc, pc) and changes nothing else, the counters
included. -/
def Obligations.FetchOutOfBoundsIsFatalAndUncounted : Prop :=
  ∀ s : State, s.status = .running → ¬ s.pc.toNat + 4 ≤ 1048576 →
    ∃ t, step s = .next t ∧ t.status = .faulted ⟨.fetchOutOfBounds, s.pc, s.pc⟩ ∧
      FrameOfFatal s t ∧ CountersKept s t

/-- R101: a misaligned fetch in bounds, by `MISALIGNED_FETCH` (D10). The order of the two tests is the spec's own D22,
log 19. -/
def Obligations.MisalignedFetchFaultsOrFetches : Prop :=
  ∀ s : State, s.status = .running → InBounds s.pc 4 → s.pc.toNat % 4 ≠ 0 →
    (s.params.misalignedFetch = .fault →
      ∃ t, step s = .next t ∧ t.status = .faulted ⟨.misalignedFetch, s.pc, s.pc⟩ ∧
        FrameOfFatal s t ∧ CountersKept s t) ∧
    (s.params.misalignedFetch = .fetch → step s = runWord s (s.mem.wordAt s.pc.toNat))

/-- R31, R201, R211: only a RUNNING state has a step, and every RUNNING state has one. The terminal FAULTED status is the
spec's own D21; the model's answer from a terminal status is log 15. -/
def Obligations.StepExistsExactlyWhenRunning : Prop :=
  ∀ s : State,
    ((∃ t, step s = .next t) ↔ s.status = .running) ∧
    (s.status = .halted → step s = .fault .halted) ∧
    (∀ f, s.status = .faulted f → step s = .fault (.faulted f))

/-- R109, an inference the spec marks as its own: a step sets a terminal status in exactly five cases. -/
def Obligations.TerminalStatusArisesInExactlyFiveCases : Prop :=
  ∀ s t : State, step s = .next t →
    let w := s.mem.wordAt s.pc.toNat
    (t.status ≠ .running ↔
      ¬ InBounds s.pc 4 ∨
      (InBounds s.pc 4 ∧ ¬ Aligned s.pc ∧ s.params.misalignedFetch = .fault) ∨
      (s.Fetchable ∧ ∃ i a n, decodeWord s.params w = .ok i ∧ accessOf s i = some (a, n) ∧ ¬ InBounds a n) ∨
      (s.Fetchable ∧ decodeWord s.params w = .ok .halt) ∨
      (s.Fetchable ∧ classify s.params w = .invalid ∧ s.params.invalidPolicy = .fault))

/-- R201, R213: a step that ends the run changes no register, no byte and not the pc. A fatal error records that pc, a
fetch fault is not counted, and a dispatch fault is. The spec's own D21 and D23, logs 16 and 19. -/
def Obligations.EndingStepsLeaveRegistersMemoryAndPc : Prop :=
  ∀ s t : State, step s = .next t → t.status ≠ .running →
    FrameOfFatal s t ∧
    ∀ f, t.status = .faulted f →
      f.pc = s.pc ∧
      (f.kind = .fetchOutOfBounds ∨ f.kind = .misalignedFetch → CountersKept s t) ∧
      (f.kind = .loadOutOfBounds ∨ f.kind = .storeOutOfBounds ∨ f.kind = .invalidOpcode →
        t.instret = (s.instret + 1) % 2 ^ s.params.cntWidth)

/-! ### Whole-machine rules -/

/-- Every step keeps the invariant: canonical memory, counters within CNT_WIDTH bits (R33), legal parameters (R83, R36),
and a terminal status that fits the state it ended in (R200, R201, R211, R212). -/
def Obligations.EveryStepKeepsTheInvariant : Prop :=
  ∀ s t : State, s.Inv → step s = .next t → t.Inv

/-- The reset state meets the invariant, under the model's reset parameters (logs 1 to 11). -/
def Obligations.ResetMeetsTheInvariant : Prop := State.reset.Inv

/-- R244, R36: over any number of steps `OPC`, `cfg` and every other parameter stay as they were. -/
def Obligations.RunsNeverChangeTheParameters : Prop :=
  ∀ (k : Nat) (s t : State), Sys2Proof.core.run k s = .next t → t.params = s.params

/-- R34, R248: the result of a program does not depend on `cfg` or the counters. From two states that differ in nothing
else, runs of any length end alike but for the counters. -/
def Obligations.ResultsDoNotDependOnCfgOrCounters : Prop :=
  ∀ (k : Nat) (s t s' : State), EqualButCounters s t → Sys2Proof.core.run k s = .next s' →
    ∃ t', Sys2Proof.core.run k t = .next t' ∧ EqualButCounters s' t'

/-- R203, an inference the spec marks as its own: under SPIN an INVALID word hangs. After any number of steps only
`instret` has grown. -/
def Obligations.InvalidWordUnderSpinHangsForEver : Prop :=
  ∀ (k : Nat) (s : State), s.status = .running → s.Fetchable →
    classify s.params (s.mem.wordAt s.pc.toNat) = .invalid → s.params.invalidPolicy = .spin →
    s.instret < 2 ^ s.params.cntWidth →
    Sys2Proof.core.run k s = .next { s with instret := (s.instret + k) % 2 ^ s.params.cntWidth }

/-- R169, an inference the spec marks as its own: a step that moves the pc to a lower address runs a jalr. -/
def Obligations.OnlyJalrMovesThePcBackwards : Prop :=
  ∀ s t : State, step s = .next t → t.pc.toNat < s.pc.toNat →
    s.Fetchable ∧ ∃ rd rs1 imm, decodeWord s.params (s.mem.wordAt s.pc.toNat) = .ok (.jalr rd rs1 imm)

/-- R25: an instruction writes no register but its `rd`; what it does depends on no register value but those it is
said to read; and a step changes a register only as the destination of the instruction it decodes. -/
def Obligations.InstructionsWriteAndReadOnlyTheirRegisters : Prop :=
  (∀ (i : Instr) (s t : State), exec i s = .next t → ∀ r, i.dest? ≠ some r → t.reg r = s.reg r) ∧
  (∀ (i : Instr) (s s' t : State), s' = { s with x := s'.x } → (∀ r ∈ i.sources, s'.reg r = s.reg r) →
    exec i s = .next t →
    ∃ t', exec i s' = .next t' ∧ t'.pc = t.pc ∧ t'.mem = t.mem ∧ t'.status = t.status ∧
      ((∀ f, t.status ≠ .faulted f) → ∀ r, i.dest? = some r → t'.reg r = t.reg r)) ∧
  (∀ (s t : State) (r : RegIdx), step s = .next t → t.reg r ≠ s.reg r →
    s.Fetchable ∧ ∃ i, decodeWord s.params (s.mem.wordAt s.pc.toNat) = .ok i ∧ i.dest? = some r)

/-- R240: after reset every register, every byte, the pc and both counters are 0 and the status is RUNNING; the same
of the host's reset from any state. -/
def Obligations.ResetZeroesEverythingAndRuns : Prop :=
  ∀ s t : State, (t = State.reset ∨ t = s.hostReset) →
    (∀ r, t.reg r = 0) ∧ t.pc = 0 ∧ (∀ a, a < 1048576 → t.mem.byteAt a = 0) ∧ t.cycles = 0 ∧ t.instret = 0 ∧
      t.status = .running

/-- R23: no register is hardwired: every one reads back any value written to it. x0 is an ordinary register: what addi
writes to x0 is what a later add reads from it, twice. -/
def Obligations.WriteToX0IsReadBack : Prop :=
  (∀ (r : RegIdx) (v : Word) (s : State), (s.setReg r v).reg r = v) ∧
  ∀ (rd rs1 : RegIdx) (imm : Nat) (s t : State), exec (.addi 0 rs1 imm) s = .next t →
    ∃ u, exec (.add rd 0 0) t = .next u ∧ (u.reg rd).toNat = 2 * ((s.reg rs1).toNat + imm) % 2 ^ 32

/-! ### Register-register instructions (spec/41_register_register.md) -/

/-- R120. -/
def Obligations.AddWritesTheSum : Prop :=
  DecodesAs .add (fun w => .add (w.extractLsb' 7 5) (w.extractLsb' 15 5) (w.extractLsb' 20 5)) ∧
  ∀ (rd rs1 rs2 : RegIdx) (s : State), ∃ t, exec (.add rd rs1 rs2) s = .next t ∧
    (t.reg rd).toNat = ((s.reg rs1).toNat + (s.reg rs2).toNat) % 2 ^ 32 ∧
    t.pc = s.pc + 4 ∧ FrameOfRegWrite rd s t

/-- R121. -/
def Obligations.SubWritesTheDifference : Prop :=
  DecodesAs .sub (fun w => .sub (w.extractLsb' 7 5) (w.extractLsb' 15 5) (w.extractLsb' 20 5)) ∧
  ∀ (rd rs1 rs2 : RegIdx) (s : State), ∃ t, exec (.sub rd rs1 rs2) s = .next t ∧
    ((t.reg rd).toNat : Int) = (((s.reg rs1).toNat : Int) - (s.reg rs2).toNat) % 2 ^ 32 ∧
    t.pc = s.pc + 4 ∧ FrameOfRegWrite rd s t

/-- R122, bit by bit. -/
def Obligations.XorWritesTheExclusiveOr : Prop :=
  DecodesAs .xor (fun w => .xor (w.extractLsb' 7 5) (w.extractLsb' 15 5) (w.extractLsb' 20 5)) ∧
  ∀ (rd rs1 rs2 : RegIdx) (s : State), ∃ t, exec (.xor rd rs1 rs2) s = .next t ∧
    (∀ n, n < 32 → (t.reg rd).getLsbD n = ((s.reg rs1).getLsbD n != (s.reg rs2).getLsbD n)) ∧
    t.pc = s.pc + 4 ∧ FrameOfRegWrite rd s t

/-- R123, bit by bit. -/
def Obligations.AndWritesTheConjunction : Prop :=
  DecodesAs .and (fun w => .and (w.extractLsb' 7 5) (w.extractLsb' 15 5) (w.extractLsb' 20 5)) ∧
  ∀ (rd rs1 rs2 : RegIdx) (s : State), ∃ t, exec (.and rd rs1 rs2) s = .next t ∧
    (∀ n, n < 32 → (t.reg rd).getLsbD n = ((s.reg rs1).getLsbD n && (s.reg rs2).getLsbD n)) ∧
    t.pc = s.pc + 4 ∧ FrameOfRegWrite rd s t

/-- R124, R126: the quotient by a power of two of the unsigned value, for both values of `SHAMT_MODE` (D7). A shift of 32
gives 0. -/
def Obligations.SrlDividesTheUnsignedValue : Prop :=
  DecodesAs .srl (fun w => .srl (w.extractLsb' 7 5) (w.extractLsb' 15 5) (w.extractLsb' 20 5)) ∧
  ∀ (rd rs1 rs2 : RegIdx) (s : State), ∃ t, exec (.srl rd rs1 rs2) s = .next t ∧
    (s.params.shamtMode = .low5 →
      (t.reg rd).toNat = (s.reg rs1).toNat / 2 ^ ((s.reg rs2).toNat % 32)) ∧
    (s.params.shamtMode = .saturate →
      (t.reg rd).toNat = (s.reg rs1).toNat / 2 ^ (min (s.reg rs2).toNat 32)) ∧
    t.pc = s.pc + 4 ∧ FrameOfRegWrite rd s t

/-- R125, R126: the quotient by a power of two, rounded down, of the signed value, for both values of `SHAMT_MODE` (D7). A
shift of 32 gives −1 or 0. -/
def Obligations.SraDividesTheSignedValue : Prop :=
  DecodesAs .sra (fun w => .sra (w.extractLsb' 7 5) (w.extractLsb' 15 5) (w.extractLsb' 20 5)) ∧
  ∀ (rd rs1 rs2 : RegIdx) (s : State), ∃ t, exec (.sra rd rs1 rs2) s = .next t ∧
    (s.params.shamtMode = .low5 →
      (t.reg rd).toInt = (s.reg rs1).toInt / 2 ^ ((s.reg rs2).toNat % 32)) ∧
    (s.params.shamtMode = .saturate →
      (t.reg rd).toInt = (s.reg rs1).toInt / 2 ^ (min (s.reg rs2).toNat 32)) ∧
    t.pc = s.pc + 4 ∧ FrameOfRegWrite rd s t

/-! ### Immediate instructions (spec/42_immediate.md) -/

/-- R140: the immediate is unsigned. -/
def Obligations.AddiWritesTheSumWithTheUnsignedImmediate : Prop :=
  DecodesAs .addi (fun w => .addi (w.extractLsb' 7 5) (w.extractLsb' 15 5) (w.extractLsb' 20 12).toNat) ∧
  ∀ (rd rs1 : RegIdx) (imm : Nat) (s : State), ∃ t, exec (.addi rd rs1 imm) s = .next t ∧
    (t.reg rd).toNat = ((s.reg rs1).toNat + imm) % 2 ^ 32 ∧
    t.pc = s.pc + 4 ∧ FrameOfRegWrite rd s t

/-- R141: the immediate is unsigned. -/
def Obligations.SubiWritesTheDifferenceWithTheUnsignedImmediate : Prop :=
  DecodesAs .subi (fun w => .subi (w.extractLsb' 7 5) (w.extractLsb' 15 5) (w.extractLsb' 20 12).toNat) ∧
  ∀ (rd rs1 : RegIdx) (imm : Nat) (s : State), ∃ t, exec (.subi rd rs1 imm) s = .next t ∧
    ((t.reg rd).toNat : Int) = (((s.reg rs1).toNat : Int) - imm) % 2 ^ 32 ∧
    t.pc = s.pc + 4 ∧ FrameOfRegWrite rd s t

/-- R142: bits 31..12 are never changed. -/
def Obligations.XoriFlipsOnlyTheLowTwelveBits : Prop :=
  DecodesAs .xori (fun w => .xori (w.extractLsb' 7 5) (w.extractLsb' 15 5) (w.extractLsb' 20 12).toNat) ∧
  ∀ (rd rs1 : RegIdx) (imm : BitVec 12) (s : State), ∃ t, exec (.xori rd rs1 imm.toNat) s = .next t ∧
    (∀ n, n < 12 → (t.reg rd).getLsbD n = ((s.reg rs1).getLsbD n != imm.getLsbD n)) ∧
    (∀ n, 12 ≤ n → n < 32 → (t.reg rd).getLsbD n = (s.reg rs1).getLsbD n) ∧
    t.pc = s.pc + 4 ∧ FrameOfRegWrite rd s t

/-- R143: the register's NUMBER is compared, and the result is the same in every state. -/
def Obligations.SltiComparesTheRegisterNumber : Prop :=
  DecodesAs .slti (fun w => .slti (w.extractLsb' 7 5) (w.extractLsb' 15 5) (w.extractLsb' 20 12).toNat) ∧
  ∀ (rd rs1 : RegIdx) (imm : Nat) (s : State), ∃ t, exec (.slti rd rs1 imm) s = .next t ∧
    (rs1.toNat < imm → t.reg rd = 1) ∧ (imm ≤ rs1.toNat → t.reg rd = 0) ∧
    t.pc = s.pc + 4 ∧ FrameOfRegWrite rd s t

/-- R144: the whole 12-bit immediate is the shift amount, for both values of `SHAMT_MODE` (D7). -/
def Obligations.SraiDividesTheSignedValue : Prop :=
  DecodesAs .srai (fun w => .srai (w.extractLsb' 7 5) (w.extractLsb' 15 5) (w.extractLsb' 20 12).toNat) ∧
  ∀ (rd rs1 : RegIdx) (imm : Nat) (s : State), imm < 4096 → ∃ t, exec (.srai rd rs1 imm) s = .next t ∧
    (s.params.shamtMode = .low5 → (t.reg rd).toInt = (s.reg rs1).toInt / 2 ^ (imm % 32)) ∧
    (s.params.shamtMode = .saturate → (t.reg rd).toInt = (s.reg rs1).toInt / 2 ^ (min imm 32)) ∧
    t.pc = s.pc + 4 ∧ FrameOfRegWrite rd s t

/-! ### Control transfer (spec/43_control_transfer.md) -/

/-- R160, R161, for both values of `JALR_ORDER` (D12): the link is the jalr's own pc + 4; the target is the base plus the
immediate, where under WRITE_FIRST the base of `rd = rs1` is the link. The layout is the spec's own D3, log 12. -/
def Obligations.JalrLinksAndJumpsThroughTheRegister : Prop :=
  DecodesAs .jalr (fun w => .jalr (w.extractLsb' 7 5) (w.extractLsb' 15 5) (w.extractLsb' 20 12).toNat) ∧
  ∀ (rd rs1 : RegIdx) (imm : Nat) (s : State), ∃ t, exec (.jalr rd rs1 imm) s = .next t ∧
    t.reg rd = s.pc + 4 ∧
    (rd ≠ rs1 ∨ s.params.jalrOrder = .readFirst → t.pc.toNat = ((s.reg rs1).toNat + imm) % 2 ^ 32) ∧
    (rd = rs1 ∧ s.params.jalrOrder = .writeFirst → t.pc.toNat = (s.pc.toNat + 4 + imm) % 2 ^ 32) ∧
    FrameOfRegWrite rd s t

/-- R162, R163: a taken beq advances the pc by twice the immediate, an untaken one by 4. -/
def Obligations.BeqBranchesWhenEqual : Prop :=
  DecodesAs .beq (fun w => .beq (w.extractLsb' 15 5) (w.extractLsb' 20 5)
    (w.extractLsb' 25 7 ++ w.extractLsb' 7 5).toNat) ∧
  ∀ (rs1 rs2 : RegIdx) (imm : Nat) (s : State), ∃ t, exec (.beq rs1 rs2 imm) s = .next t ∧
    (s.reg rs1 = s.reg rs2 → t.pc.toNat = (s.pc.toNat + 2 * imm) % 2 ^ 32) ∧
    (s.reg rs1 ≠ s.reg rs2 → t.pc.toNat = (s.pc.toNat + 4) % 2 ^ 32) ∧ FrameOfBranch s t

/-- R164; that the compare is signed is an inference the spec marks as its own. -/
def Obligations.BgeBranchesWhenGreaterOrEqualSigned : Prop :=
  DecodesAs .bge (fun w => .bge (w.extractLsb' 15 5) (w.extractLsb' 20 5)
    (w.extractLsb' 25 7 ++ w.extractLsb' 7 5).toNat) ∧
  ∀ (rs1 rs2 : RegIdx) (imm : Nat) (s : State), ∃ t, exec (.bge rs1 rs2 imm) s = .next t ∧
    ((s.reg rs2).toInt ≤ (s.reg rs1).toInt → t.pc.toNat = (s.pc.toNat + 2 * imm) % 2 ^ 32) ∧
    ((s.reg rs1).toInt < (s.reg rs2).toInt → t.pc.toNat = (s.pc.toNat + 4) % 2 ^ 32) ∧ FrameOfBranch s t

/-- R165; that the compare is signed is an inference the spec marks as its own. -/
def Obligations.BltBranchesWhenLessSigned : Prop :=
  DecodesAs .blt (fun w => .blt (w.extractLsb' 15 5) (w.extractLsb' 20 5)
    (w.extractLsb' 25 7 ++ w.extractLsb' 7 5).toNat) ∧
  ∀ (rs1 rs2 : RegIdx) (imm : Nat) (s : State), ∃ t, exec (.blt rs1 rs2 imm) s = .next t ∧
    ((s.reg rs1).toInt < (s.reg rs2).toInt → t.pc.toNat = (s.pc.toNat + 2 * imm) % 2 ^ 32) ∧
    ((s.reg rs2).toInt ≤ (s.reg rs1).toInt → t.pc.toNat = (s.pc.toNat + 4) % 2 ^ 32) ∧ FrameOfBranch s t

/-- R167: the link is pc + 4, and the target is the pc of this jal plus twice the immediate. Its class is the spec's own
D3, log 12. -/
def Obligations.JalLinksAndJumpsForward : Prop :=
  DecodesAs .jal (fun w => .jal (w.extractLsb' 7 5) (w.extractLsb' 12 20).toNat) ∧
  ∀ (rd : RegIdx) (imm : Nat) (s : State), ∃ t, exec (.jal rd imm) s = .next t ∧
    t.reg rd = s.pc + 4 ∧ t.pc.toNat = (s.pc.toNat + 2 * imm) % 2 ^ 32 ∧ FrameOfRegWrite rd s t

/-! ### Loads and stores (spec/44_load_store.md) -/

/-- R180: in bounds, lw writes the big-endian word at the effective address. The address is a sum modulo 2^32 and needs no
alignment: the spec's own D9 and D11, logs 13 and 14; the layout is its D3, log 12. -/
def Obligations.LwLoadsTheBigEndianWord : Prop :=
  DecodesAs .lw (fun w => .lw (w.extractLsb' 7 5) (w.extractLsb' 15 5) (w.extractLsb' 20 12).toNat) ∧
  ∀ (rd rs1 : RegIdx) (imm : Nat) (s : State), let a := ((s.reg rs1).toNat + imm) % 2 ^ 32
    a + 4 ≤ 1048576 → ∃ t, exec (.lw rd rs1 imm) s = .next t ∧
      t.reg rd = s.mem.byteAt a ++ s.mem.byteAt (a + 1) ++ s.mem.byteAt (a + 2) ++ s.mem.byteAt (a + 3) ∧
      t.pc = s.pc + 4 ∧ FrameOfRegWrite rd s t

/-- R181: in bounds, lb writes the byte at the effective address, widened by `LB_EXT` (D8). The address sum is the spec's
own D9, log 13; the layout is its D3, log 12. -/
def Obligations.LbLoadsTheWidenedByte : Prop :=
  DecodesAs .lb (fun w => .lb (w.extractLsb' 7 5) (w.extractLsb' 15 5) (w.extractLsb' 20 12).toNat) ∧
  ∀ (rd rs1 : RegIdx) (imm : Nat) (s : State), let a := ((s.reg rs1).toNat + imm) % 2 ^ 32
    a + 1 ≤ 1048576 → ∃ t, exec (.lb rd rs1 imm) s = .next t ∧
      (s.params.lbExt = .zero → (t.reg rd).toNat = (s.mem.byteAt a).toNat) ∧
      (s.params.lbExt = .sign → (t.reg rd).toInt = (s.mem.byteAt a).toInt) ∧
      t.pc = s.pc + 4 ∧ FrameOfRegWrite rd s t

/-- R182: in bounds, sw stores the four bytes of `x[rs2]`, most significant first, at the effective address, and changes
no other byte. The address sum and the lack of alignment are the spec's own D9 and D11, logs 13 and 14. -/
def Obligations.SwStoresTheFourBytes : Prop :=
  DecodesAs .sw (fun w => .sw (w.extractLsb' 15 5) (w.extractLsb' 20 5)
    (w.extractLsb' 25 7 ++ w.extractLsb' 7 5).toNat) ∧
  ∀ (rs1 rs2 : RegIdx) (imm : Nat) (s : State), let a := (effectiveAddress s rs1 imm).toNat
    a = ((s.reg rs1).toNat + imm) % 2 ^ 32 ∧
    (a + 4 ≤ 1048576 → ∃ t, exec (.sw rs1 rs2 imm) s = .next t ∧
      t.mem.byteAt a = (s.reg rs2).extractLsb' 24 8 ∧ t.mem.byteAt (a + 1) = (s.reg rs2).extractLsb' 16 8 ∧
      t.mem.byteAt (a + 2) = (s.reg rs2).extractLsb' 8 8 ∧ t.mem.byteAt (a + 3) = (s.reg rs2).extractLsb' 0 8 ∧
      t.pc = s.pc + 4 ∧ FrameOfStore a 4 s t)

/-- R183: in bounds, sb stores the low byte of `x[rs2]` at the effective address, and changes no other byte. The address
sum is the spec's own D9, log 13. -/
def Obligations.SbStoresTheLowByte : Prop :=
  DecodesAs .sb (fun w => .sb (w.extractLsb' 15 5) (w.extractLsb' 20 5)
    (w.extractLsb' 25 7 ++ w.extractLsb' 7 5).toNat) ∧
  ∀ (rs1 rs2 : RegIdx) (imm : Nat) (s : State), let a := (effectiveAddress s rs1 imm).toNat
    a = ((s.reg rs1).toNat + imm) % 2 ^ 32 ∧
    (a + 1 ≤ 1048576 → ∃ t, exec (.sb rs1 rs2 imm) s = .next t ∧
      (t.mem.byteAt a).toNat = (s.reg rs2).toNat % 256 ∧ t.pc = s.pc + 4 ∧ FrameOfStore a 1 s t)

/-- R184: where the access of lw, lb, sw or sb is out of bounds, the status is FAULTED with the kind, the effective
address and the pc, and no register, byte, counter or the pc changes in dispatch. The record is the spec's own D21, log
19. -/
def Obligations.OutOfBoundsAccessIsFatal : Prop :=
  ∀ (i : Instr) (s : State) (a : Word) (n : Nat) (kind : FaultKind),
    accessOf s i = some (a, n) → i.accessFault? = some kind → ¬ a.toNat + n ≤ 1048576 →
    ∃ t, exec i s = .next t ∧ t.status = .faulted ⟨kind, a, s.pc⟩ ∧ FrameOfFatal s t ∧ CountersKept s t

/-- W6 and R182: a word stored with sw and loaded with lw at the same effective address comes back. Rests on the
spec's own D9 and D11, logs 13 and 14. -/
def Obligations.SwThenLwReturnsTheStoredWord : Prop :=
  ∀ (rs1 rs2 rd rs1' : RegIdx) (imm imm' : Nat) (s t : State), exec (.sw rs1 rs2 imm) s = .next t →
    InBounds (effectiveAddress s rs1 imm) 4 → effectiveAddress t rs1' imm' = effectiveAddress s rs1 imm →
    ∃ u, exec (.lw rd rs1' imm') t = .next u ∧ u.reg rd = s.reg rs2

/-! ### Memory (spec/20_memory.md) -/

/-- R53, R55: words are read and written big-endian where they lie in memory, and are a fault elsewhere; a write leaves
every other byte. -/
def Obligations.WordAccessIsBigEndianAndBounded : Prop :=
  ∀ (m : Memory) (a v : Word), let n := a.toNat
    (n + 4 ≤ 1048576 →
      m.readWord a = some (m.byteAt n ++ m.byteAt (n + 1) ++ m.byteAt (n + 2) ++ m.byteAt (n + 3)) ∧
      ∃ m', m.writeWord a v = some m' ∧
        m'.byteAt n = v.extractLsb' 24 8 ∧ m'.byteAt (n + 1) = v.extractLsb' 16 8 ∧
        m'.byteAt (n + 2) = v.extractLsb' 8 8 ∧ m'.byteAt (n + 3) = v.extractLsb' 0 8 ∧
        ∀ b, (b < n ∨ n + 4 ≤ b) → m'.byteAt b = m.byteAt b) ∧
    (¬ n + 4 ≤ 1048576 → m.readWord a = none ∧ m.writeWord a v = none)

/-- R52, R54: bytes are read and written where they lie in memory, and are a fault elsewhere; a write leaves every other
byte. -/
def Obligations.ByteAccessIsBounded : Prop :=
  ∀ (m : Memory) (a : Word) (v : Byte),
    (a.toNat + 1 ≤ 1048576 →
      m.readByte a = some (m.byteAt a.toNat) ∧
      ∃ m', m.writeByte a v = some m' ∧ m'.byteAt a.toNat = v ∧ ∀ b, b ≠ a.toNat → m'.byteAt b = m.byteAt b) ∧
    (¬ a.toNat + 1 ≤ 1048576 → m.readByte a = none ∧ m.writeByte a v = none)

/-- R58, an inference the spec marks as its own: byte `k` of a stored word is read at `a + k`, counted from the most
significant end, and a byte stored there changes that lane of the word alone. -/
def Obligations.ByteLanesCountFromTheMostSignificantEnd : Prop :=
  (∀ (m m' : Memory) (a v : Word) (k : Nat), m.writeWord a v = some m' → k < 4 →
    m'.readByte (a + BitVec.ofNat 32 k) = some (v.extractLsb' (24 - 8 * k) 8)) ∧
  ∀ (m m' : Memory) (a w : Word) (b : Byte) (k : Nat), m.readWord a = some w → k < 4 →
    m.writeByte (a + BitVec.ofNat 32 k) b = some m' →
    ∃ w', m'.readWord a = some w' ∧ w'.extractLsb' (24 - 8 * k) 8 = b ∧
      ∀ j, j < 4 → j ≠ k → w'.extractLsb' (24 - 8 * j) 8 = w.extractLsb' (24 - 8 * j) 8

/-- R68, R246, inferences the spec marks as its own: the very next step fetches and runs the word that a store left at
its pc. A word store over the next instruction is that word; any word or byte store gives the fetched word the bytes it
stored there, be they all, some or none of its four, and the word's other bytes are as before. -/
def Obligations.NextFetchSeesTheStoredBytes : Prop :=
  (∀ (rs1 rs2 : RegIdx) (imm : Nat) (s t : State), s.status = .running → exec (.sw rs1 rs2 imm) s = .next t →
    effectiveAddress s rs1 imm = s.pc + 4 → InBounds (s.pc + 4) 4 → t.Fetchable →
    step t = runWord t (s.reg rs2)) ∧
  (∀ (rs1 rs2 : RegIdx) (imm : Nat) (s t : State), s.status = .running → exec (.sw rs1 rs2 imm) s = .next t →
    InBounds (effectiveAddress s rs1 imm) 4 → t.Fetchable →
    let a := (effectiveAddress s rs1 imm).toNat
    ∃ w, step t = runWord t w ∧ ∀ k, k < 4 →
      let b := (s.pc + 4).toNat + k
      w.extractLsb' (24 - 8 * k) 8 =
        if a ≤ b ∧ b < a + 4 then (s.reg rs2).extractLsb' (24 - 8 * (b - a)) 8 else s.mem.byteAt b) ∧
  (∀ (rs1 rs2 : RegIdx) (imm : Nat) (s t : State), s.status = .running → exec (.sb rs1 rs2 imm) s = .next t →
    InBounds (effectiveAddress s rs1 imm) 1 → t.Fetchable →
    let a := (effectiveAddress s rs1 imm).toNat
    ∃ w, step t = runWord t w ∧ ∀ k, k < 4 →
      let b := (s.pc + 4).toNat + k
      w.extractLsb' (24 - 8 * k) 8 = if b = a then (s.reg rs2).extractLsb' 0 8 else s.mem.byteAt b)

/-! ### HALT (spec/45_halt_invalid.md) -/

/-- R200: the all-ones word, and under OPCODE_ONLY any word with opcode 0x7F, is HALT; it sets HALTED and changes nothing
else. That the pc stays at the halt word is the spec's own D23 (R201), log 16. -/
def Obligations.HaltSetsHaltedAndNothingElse : Prop :=
  (∀ p : Params, decodeWord p 0xFFFFFFFF = .ok .halt) ∧
  (∀ (p : Params) (w : Word), p.haltMatch = .opcodeOnly → w.extractLsb' 0 7 = 0b1111111 →
    decodeWord p w = .ok .halt) ∧
  ∀ s : State, ∃ t, exec .halt s = .next t ∧ t.status = .halted ∧ t.pc = s.pc ∧ RegsKept s t ∧ MemKept s t ∧
    CountersKept s t ∧ t.params = s.params

/-! ### Counters, time and the host (spec/60_exceptions.md, spec/10_state.md) -/

/-- R221: the execution time is the exact quotient of the cycles by the frequency in hertz. -/
def Obligations.ExecutionTimeIsCyclesOverFrequency : Prop :=
  ∀ s : State, 0 < s.params.cfg.freqMhz →
    ∃ q : Rat, s.executionTime = some q ∧ q * ((s.params.cfg.freqMhz : Rat) * 1000000) = (s.cycles : Rat)

/-- W3, R222: the same cycles at twice the frequency give a speedup of exactly 2. -/
def Obligations.DoublingTheFrequencyGivesSpeedupTwo : Prop :=
  ∀ s t : State, 0 < s.cycles → t.cycles = s.cycles → 0 < s.params.cfg.freqMhz →
    t.params.cfg.freqMhz = 2 * s.params.cfg.freqMhz →
    ∃ a b, s.executionTime = some a ∧ t.executionTime = some b ∧ speedup a b = some 2 ∧ b < a

/-- R44: a block that is RUNNING after its first step takes no act of the host but a step: no load, no supply and no
reset. And no act of the host but a step or a reset changes a register, the pc, a counter or the status. The interface
is the spec's own D15, log 23. -/
def Obligations.SteppedRunningBlockIsOnlyStepped : Prop :=
  (∀ t : Session, t.stepped = true → t.block.status = .running →
    (∀ image, t.perform (.load image) = none) ∧ (∀ cfg, t.perform (.supply cfg) = none) ∧
      t.perform .reset = none ∧ ∀ a, t.perform a ≠ none → a = .step) ∧
  ∀ (t u : Session) (a : HostAction), t.perform a = some u → a ≠ .step → a ≠ .reset →
    RegsKept t.block u.block ∧ u.block.pc = t.block.pc ∧ CountersKept t.block u.block ∧
      u.block.status = t.block.status

/-- R44, R242, R45: before the first step after reset, or when the block is not RUNNING, the host's load writes exactly
the image's bytes (the last one, where the image gives an address several) and its supply replaces `cfg` alone, and its
reset zeroes the block under the parameters it has; a RUNNING block can be stepped. R203: the host ends the hang of an
INVALID word under SPIN, and nothing else, by a reset. The interface is the spec's own D15; that R203's reset stands
outside it is the model's reading, log 23. -/
def Obligations.HostActionsHaveTheirEffectAlone : Prop :=
  (∀ t : Session, t.stepped = false ∨ t.block.status ≠ .running →
    (∀ image : List Host.Cell, (∀ c ∈ image, c.1 < 1048576) →
      ∃ u, t.perform (.load image) = some u ∧ u.stepped = t.stepped ∧
        (∀ pre a v post, image = pre ++ (a, v) :: post → (∀ c ∈ post, c.1 ≠ a) → u.block.mem.byteAt a = v) ∧
        (∀ a, (∀ c ∈ image, c.1 ≠ a) → u.block.mem.byteAt a = t.block.mem.byteAt a) ∧
        RegsKept t.block u.block ∧ u.block.pc = t.block.pc ∧ CountersKept t.block u.block ∧
        StatusAndParamsKept t.block u.block) ∧
    (∀ cfg : PerfConfig, 0 < cfg.freqMhz →
      t.perform (.supply cfg) =
        some { t with block := { t.block with params := { t.block.params with cfg := cfg } } }) ∧
    ∃ u, t.perform .reset = some u ∧ u.stepped = false ∧ u.block.params = t.block.params ∧
      (∀ r, u.block.reg r = 0) ∧ u.block.pc = 0 ∧ (∀ a, u.block.mem.byteAt a = 0) ∧ u.block.cycles = 0 ∧
      u.block.instret = 0 ∧ u.block.status = .running) ∧
  (∀ t : Session, t.block.status = .running →
    ∃ s, step t.block = .next s ∧ t.perform .step = some ⟨s, true⟩) ∧
  ∀ t u : Session, t.endHang = some u ↔
    (t.block.status = .running ∧ t.block.Fetchable ∧ t.block.params.invalidPolicy = .spin ∧
      classify t.block.params (t.block.mem.wordAt t.block.pc.toNat) = .invalid) ∧
    u = ⟨t.block.hostReset, false⟩

/-- Every action of the host, a step or a reset among them, and the end of the hang of R203 keep the data invariant of
the block. The interface is the spec's own D15, log 23. -/
def Obligations.HostActionsKeepTheDataInvariant : Prop :=
  (∀ (t u : Session) (a : HostAction), t.block.DataInv → t.perform a = some u → u.block.DataInv) ∧
  ∀ t u : Session, t.block.DataInv → t.endHang = some u → u.block.DataInv
end

