-- ==== Sys2Proof/Laws/Decode.lean ====
section
/-! SUPPORT. The laws of the decoder and the encoder: the opcode map, the halt test, and the fields of an encoded
word. -/

namespace Sys2Proof

/-! ### The opcode map (R83) -/

theorem Mnemonic.mem_all (m : Mnemonic) : m ∈ Mnemonic.all := by cases m <;> decide

/-- A legal `OPC` is injective. -/
theorem OpcodeMap.legal.inj {o : OpcodeMap} (h : o.legal) {m n : Mnemonic} (e : o.of m = o.of n) : m = n :=
  List.inj_on_of_nodup_map h.1 m.mem_all n.mem_all e

/-- A legal `OPC` has no value 0b1111111. -/
theorem OpcodeMap.legal.ne_ones {o : OpcodeMap} (h : o.legal) (m : Mnemonic) : o.of m ≠ 0b1111111 :=
  h.2 m m.mem_all

theorem mnemonicOf_some {p : Params} {op : Opcode} {m : Mnemonic} (h : mnemonicOf p op = some m) :
    p.opc.of m = op := by
  simpa using List.find?_some h

theorem mnemonicOf_none {p : Params} {op : Opcode} : mnemonicOf p op = none ↔ ∀ m, p.opc.of m ≠ op := by
  unfold mnemonicOf
  rw [List.find?_eq_none]
  exact ⟨fun h m => by simpa using h m m.mem_all, fun h m _ => by simpa using h m⟩

/-- The mnemonic found for an assigned opcode is the one it is assigned to (R72). -/
theorem mnemonicOf_of {p : Params} (h : p.opc.legal) (m : Mnemonic) : mnemonicOf p (p.opc.of m) = some m := by
  cases e : mnemonicOf p (p.opc.of m) with
  | none => exact absurd rfl (mnemonicOf_none.mp e m)
  | some n => rw [h.inj (mnemonicOf_some e)]

/-! ### The halt test (R72) -/

theorem isHaltWord_iff {p : Params} {w : Word} :
    isHaltWord p w = true ↔
      (p.haltMatch = .fullWord ∧ w = 0xFFFFFFFF) ∨ (p.haltMatch = .opcodeOnly ∧ opField w = 0b1111111) := by
  unfold isHaltWord haltWord
  cases p.haltMatch <;> simp

theorem opField_of_isHaltWord {p : Params} {w : Word} (h : isHaltWord p w = true) : opField w = 0b1111111 := by
  rcases isHaltWord_iff.mp h with ⟨_, rfl⟩ | ⟨_, e⟩
  · decide
  · exact e

/-- A word with a mnemonic's opcode is no halt word (R83: no class layout produces one). -/
theorem isHaltWord_of_opcode {p : Params} (h : p.opc.legal) {w : Word} {m : Mnemonic} (e : opField w = p.opc.of m) :
    isHaltWord p w = false := by
  cases hw : isHaltWord p w with
  | false => rfl
  | true => exact absurd (e ▸ opField_of_isHaltWord hw) (h.ne_ones m)

/-- The all-ones word is HALT under both values of `HALT_MATCH` (R78). -/
theorem isHaltWord_haltWord (p : Params) : isHaltWord p haltWord = true := by
  unfold isHaltWord; cases p.haltMatch <;> decide

/-! ### Decoding a word (R72, R102) -/

theorem decodeWord_of_isHaltWord {p : Params} {w : Word} (h : isHaltWord p w = true) :
    decodeWord p w = .ok .halt := by simp [decodeWord, h]

/-- A word with a mnemonic's opcode decodes to that mnemonic's instruction, by its layout. -/
theorem decodeWord_of_opcode {p : Params} (h : p.opc.legal) {w : Word} {m : Mnemonic}
    (e : opField w = p.opc.of m) : decodeWord p w = .ok (Instr.ofWord w m) := by
  simp [decodeWord, isHaltWord_of_opcode h e, e, mnemonicOf_of h]

/-- Everything the decoder can answer: HALT, a mnemonic's instruction, or the rejection by opcode. -/
theorem decodeWord_cases (p : Params) (w : Word) :
    (isHaltWord p w = true ∧ decodeWord p w = .ok .halt ∧ classify p w = .halt) ∨
    (∃ m, isHaltWord p w = false ∧ p.opc.of m = opField w ∧ decodeWord p w = .ok (Instr.ofWord w m) ∧
      classify p w = m.cls) ∨
    (isHaltWord p w = false ∧ (∀ m, p.opc.of m ≠ opField w) ∧
      decodeWord p w = .error (.invalidOpcode (opField w)) ∧ classify p w = .invalid) := by
  cases hw : isHaltWord p w with
  | true => exact .inl ⟨rfl, by simp [decodeWord, hw], by simp [classify, hw]⟩
  | false =>
    cases hm : mnemonicOf p (opField w) with
    | some m =>
      exact .inr (.inl ⟨m, rfl, mnemonicOf_some hm, by simp [decodeWord, hw, hm], by simp [classify, hw, hm]⟩)
    | none =>
      exact .inr (.inr ⟨rfl, mnemonicOf_none.mp hm, by simp [decodeWord, hw, hm], by simp [classify, hw, hm]⟩)

@[simp] theorem Instr.mnemonic?_ofWord (w : Word) (m : Mnemonic) : (Instr.ofWord w m).mnemonic? = some m := by
  cases m <;> rfl

/-- An instruction read from a word fits its layout. -/
theorem Instr.wellFormed_ofWord (w : Word) (m : Mnemonic) : (Instr.ofWord w m).wellFormed = true := by
  have hI : immI w < 4096 := (w.extractLsb' 20 12).isLt
  have hB : immSB w < 4096 := (w.extractLsb' 25 7 ++ w.extractLsb' 7 5).isLt
  have hJ : immJ w < 1048576 := (w.extractLsb' 12 20).isLt
  cases m <;> simp [Instr.ofWord, Instr.wellFormed, imm12Fits, imm20Fits, hI, hB, hJ]

/-- Four bytes decode as the word they make. -/
theorem decodeBytes_four (p : Params) (b0 b1 b2 b3 : Byte) (rest : List Byte) :
    decodeBytes p (b0 :: b1 :: b2 :: b3 :: rest) =
      (decodeWord p (wordOfBytes b0 b1 b2 b3)).map fun i => (i, rest) := by
  simp only [decodeBytes]
  cases decodeWord p (wordOfBytes b0 b1 b2 b3) <;> rfl

/-! ### The fields of an encoded word (R74 to R77, R86) -/

theorem fields_layoutR (o : Opcode) (rd rs1 rs2 : RegIdx) :
    let w : Word := 0#7 ++ rs2 ++ rs1 ++ 0#3 ++ rd ++ o
    opField w = o ∧ rdField w = rd ∧ rs1Field w = rs1 ∧ rs2Field w = rs2 := by
  refine ⟨?_, ?_, ?_, ?_⟩ <;> apply BitVec.eq_of_getLsbD_eq <;> intro i hi <;>
    simp only [opField, rdField, rs1Field, rs2Field, BitVec.getLsbD_extractLsb', BitVec.getLsbD_append] <;>
    interval_cases i <;> simp

theorem fields_layoutI (o : Opcode) (rd rs1 : RegIdx) (imm : BitVec 12) :
    let w : Word := imm ++ rs1 ++ 0#3 ++ rd ++ o
    opField w = o ∧ rdField w = rd ∧ rs1Field w = rs1 ∧ w.extractLsb' 20 12 = imm := by
  refine ⟨?_, ?_, ?_, ?_⟩ <;> apply BitVec.eq_of_getLsbD_eq <;> intro i hi <;>
    simp only [opField, rdField, rs1Field, BitVec.getLsbD_extractLsb', BitVec.getLsbD_append] <;>
    interval_cases i <;> simp

theorem fields_layoutSB (o : Opcode) (rs1 rs2 : RegIdx) (imm : BitVec 12) :
    let w : Word := imm.extractLsb' 5 7 ++ rs2 ++ rs1 ++ 0#3 ++ imm.extractLsb' 0 5 ++ o
    opField w = o ∧ rs1Field w = rs1 ∧ rs2Field w = rs2 ∧ w.extractLsb' 25 7 ++ w.extractLsb' 7 5 = imm := by
  refine ⟨?_, ?_, ?_, ?_⟩ <;> apply BitVec.eq_of_getLsbD_eq <;> intro i hi <;>
    simp only [opField, rs1Field, rs2Field, BitVec.getLsbD_extractLsb', BitVec.getLsbD_append] <;>
    interval_cases i <;> simp

theorem fields_layoutJ (o : Opcode) (rd : RegIdx) (imm : BitVec 20) :
    let w : Word := imm ++ rd ++ o
    opField w = o ∧ rdField w = rd ∧ w.extractLsb' 12 20 = imm := by
  refine ⟨?_, ?_, ?_⟩ <;> apply BitVec.eq_of_getLsbD_eq <;> intro i hi <;>
    simp only [opField, rdField, BitVec.getLsbD_extractLsb', BitVec.getLsbD_append] <;>
    interval_cases i <;> simp

/-! ### The encoders, one spec lemma each (R86) -/

theorem encodeR_eq (o : Opcode) (rd rs1 rs2 : RegIdx) :
    encodeR o rd.toNat rs1.toNat rs2.toNat = some (0#7 ++ rs2 ++ rs1 ++ 0#3 ++ rd ++ o) := by
  unfold encodeR
  rw [if_pos ⟨rd.isLt, rs1.isLt, rs2.isLt⟩]
  simp only [BitVec.ofNat_toNat, BitVec.setWidth_eq]

theorem encodeI_eq (o : Opcode) (rd rs1 : RegIdx) (imm : BitVec 12) :
    encodeI o rd.toNat rs1.toNat imm.toNat = some (imm ++ rs1 ++ 0#3 ++ rd ++ o) := by
  unfold encodeI
  rw [if_pos ⟨rd.isLt, rs1.isLt, imm.isLt⟩]
  simp only [BitVec.ofNat_toNat, BitVec.setWidth_eq]

theorem encodeSB_eq (o : Opcode) (rs1 rs2 : RegIdx) (imm : BitVec 12) :
    encodeSB o rs1.toNat rs2.toNat imm.toNat =
      some (imm.extractLsb' 5 7 ++ rs2 ++ rs1 ++ 0#3 ++ imm.extractLsb' 0 5 ++ o) := by
  unfold encodeSB
  rw [if_pos ⟨rs1.isLt, rs2.isLt, imm.isLt⟩]
  simp only [BitVec.ofNat_toNat, BitVec.setWidth_eq]

theorem encodeJ_eq (o : Opcode) (rd : RegIdx) (imm : BitVec 20) :
    encodeJ o rd.toNat imm.toNat = some (imm ++ rd ++ o) := by
  unfold encodeJ
  rw [if_pos ⟨rd.isLt, imm.isLt⟩]
  simp only [BitVec.ofNat_toNat, BitVec.setWidth_eq]

/-- An immediate that fits is the value of its field. -/
theorem exists_field {n imm : Nat} (h : imm < 2 ^ n) : ∃ v : BitVec n, v.toNat = imm :=
  ⟨BitVec.ofNat n imm, by rw [BitVec.toNat_ofNat]; exact Nat.mod_eq_of_lt h⟩

/-- `encodeR` of register indices succeeds, and the fields read back. -/
theorem encodeR_spec (o : Opcode) (rd rs1 rs2 : RegIdx) :
    ∃ w, encodeR o rd.toNat rs1.toNat rs2.toNat = some w ∧
      opField w = o ∧ rdField w = rd ∧ rs1Field w = rs1 ∧ rs2Field w = rs2 :=
  ⟨_, encodeR_eq o rd rs1 rs2, fields_layoutR o rd rs1 rs2⟩

theorem encodeI_spec (o : Opcode) (rd rs1 : RegIdx) {imm : Nat} (h : imm < 2 ^ 12) :
    ∃ w, encodeI o rd.toNat rs1.toNat imm = some w ∧
      opField w = o ∧ rdField w = rd ∧ rs1Field w = rs1 ∧ immI w = imm := by
  obtain ⟨v, rfl⟩ := exists_field h
  obtain ⟨h1, h2, h3, h4⟩ := fields_layoutI o rd rs1 v
  exact ⟨_, encodeI_eq o rd rs1 v, h1, h2, h3, congrArg BitVec.toNat h4⟩

theorem encodeSB_spec (o : Opcode) (rs1 rs2 : RegIdx) {imm : Nat} (h : imm < 2 ^ 12) :
    ∃ w, encodeSB o rs1.toNat rs2.toNat imm = some w ∧
      opField w = o ∧ rs1Field w = rs1 ∧ rs2Field w = rs2 ∧ immSB w = imm := by
  obtain ⟨v, rfl⟩ := exists_field h
  obtain ⟨h1, h2, h3, h4⟩ := fields_layoutSB o rs1 rs2 v
  exact ⟨_, encodeSB_eq o rs1 rs2 v, h1, h2, h3, congrArg BitVec.toNat h4⟩

theorem encodeJ_spec (o : Opcode) (rd : RegIdx) {imm : Nat} (h : imm < 2 ^ 20) :
    ∃ w, encodeJ o rd.toNat imm = some w ∧ opField w = o ∧ rdField w = rd ∧ immJ w = imm := by
  obtain ⟨v, rfl⟩ := exists_field h
  obtain ⟨h1, h2, h3⟩ := fields_layoutJ o rd v
  exact ⟨_, encodeJ_eq o rd v, h1, h2, congrArg BitVec.toNat h3⟩

/-! ### The opcode of an encoded word (R86) -/

theorem encodeR_op {o : Opcode} {rd rs1 rs2 : Nat} {w : Word} (h : encodeR o rd rs1 rs2 = some w) : opField w = o := by
  unfold encodeR at h; split at h <;> cases h; exact (fields_layoutR o _ _ _).1
theorem encodeI_op {o : Opcode} {rd rs1 imm : Nat} {w : Word} (h : encodeI o rd rs1 imm = some w) : opField w = o := by
  unfold encodeI at h; split at h <;> cases h; exact (fields_layoutI o _ _ _).1
theorem encodeSB_op {o : Opcode} {rs1 rs2 imm : Nat} {w : Word} (h : encodeSB o rs1 rs2 imm = some w) :
    opField w = o := by
  unfold encodeSB at h; split at h <;> cases h; exact (fields_layoutSB o _ _ _).1
theorem encodeJ_op {o : Opcode} {rd imm : Nat} {w : Word} (h : encodeJ o rd imm = some w) : opField w = o := by
  unfold encodeJ at h; split at h <;> cases h; exact (fields_layoutJ o _ _).1

/-! ### Rebuilding a word from its fields (R74 to R77, R82, R87) -/

/-- Clearing the bits of a mask leaves a field that the mask does not touch. -/
theorem extract_unmasked (w mask : Word) (k n : Nat) (h : mask.extractLsb' k n = 0) :
    (w &&& ~~~mask).extractLsb' k n = w.extractLsb' k n := by
  apply BitVec.eq_of_getLsbD_eq
  intro i hi
  have hb : mask.getLsbD (k + i) = false := by simpa [hi] using congrArg (fun v : BitVec n => v.getLsbD i) h
  simp only [BitVec.getLsbD_extractLsb', BitVec.getLsbD_and, BitVec.getLsbD_not, hb]
  by_cases hk : k + i < 32
  · simp [hk]
  · simp [BitVec.getLsbD_of_ge w (k + i) (by omega)]

/-- The `-` bits of a layout are in no field of it, so clearing them changes no instruction (R82). -/
theorem Instr.ofWord_unmasked (w : Word) (m : Mnemonic) :
    Instr.ofWord (w &&& ~~~(ignoredMask m.cls)) m = Instr.ofWord w m := by
  cases m <;>
    simp (disch := decide) only [Instr.ofWord, Mnemonic.cls, rdField, rs1Field, rs2Field, immI, immSB, immJ,
      extract_unmasked]

theorem opField_unmasked (w : Word) (c : InstrClass) : opField (w &&& ~~~(ignoredMask c)) = opField w :=
  extract_unmasked w _ 0 7 (by cases c <;> decide)

/-- A word is free of the bits of a mask exactly when clearing them leaves it. -/
theorem unmasked_eq_iff (w mask : Word) : w &&& ~~~mask = w ↔ w &&& mask = 0 := by
  constructor
  · intro h; rw [← h, BitVec.and_assoc]; simp
  · intro h
    apply BitVec.eq_of_getLsbD_eq
    intro i hi
    have hb : (w.getLsbD i && mask.getLsbD i) = false := by
      simpa using congrArg (fun v : Word => v.getLsbD i) h
    simp only [BitVec.getLsbD_and, BitVec.getLsbD_not, hi, decide_true, Bool.true_and]
    cases hw : w.getLsbD i <;> simp_all

@[simp] theorem Instr.cls_ofWord (w : Word) (m : Mnemonic) : (Instr.ofWord w m).cls = m.cls := by
  simp [Instr.cls]

/-- A word laid out from the fields of `w` by the R layout is `w` with its `-` bits cleared. -/
theorem rebuild_R (w : Word) :
    (0#7 ++ rs2Field w ++ rs1Field w ++ 0#3 ++ rdField w ++ opField w : Word) = w &&& ~~~(ignoredMask .r) := by
  apply BitVec.eq_of_getLsbD_eq
  intro i hi
  simp only [opField, rdField, rs1Field, rs2Field, BitVec.getLsbD_extractLsb', BitVec.getLsbD_append, ignoredMask,
    BitVec.getLsbD_and]
  interval_cases i <;> simp

theorem rebuild_I (w : Word) :
    (w.extractLsb' 20 12 ++ rs1Field w ++ 0#3 ++ rdField w ++ opField w : Word) = w &&& ~~~(ignoredMask .i) := by
  apply BitVec.eq_of_getLsbD_eq
  intro i hi
  simp only [opField, rdField, rs1Field, BitVec.getLsbD_extractLsb', BitVec.getLsbD_append, ignoredMask,
    BitVec.getLsbD_and]
  interval_cases i <;> simp

theorem rebuild_SB (w : Word) :
    (w.extractLsb' 25 7 ++ rs2Field w ++ rs1Field w ++ 0#3 ++ w.extractLsb' 7 5 ++ opField w : Word) =
      w &&& ~~~(ignoredMask .sb) := by
  apply BitVec.eq_of_getLsbD_eq
  intro i hi
  simp only [opField, rs1Field, rs2Field, BitVec.getLsbD_extractLsb', BitVec.getLsbD_append, ignoredMask,
    BitVec.getLsbD_and]
  interval_cases i <;> simp

theorem rebuild_J (w : Word) :
    (w.extractLsb' 12 20 ++ rdField w ++ opField w : Word) = w := by
  apply BitVec.eq_of_getLsbD_eq
  intro i hi
  simp only [opField, rdField, BitVec.getLsbD_extractLsb', BitVec.getLsbD_append]
  interval_cases i <;> simp

/-- The two parts of the S/B immediate, put together and cut again, are the two parts. -/
theorem sb_parts (a : BitVec 7) (b : BitVec 5) :
    (a ++ b : BitVec 12).extractLsb' 5 7 = a ∧ (a ++ b : BitVec 12).extractLsb' 0 5 = b := by
  refine ⟨?_, ?_⟩ <;> apply BitVec.eq_of_getLsbD_eq <;> intro i hi <;>
    simp only [BitVec.getLsbD_extractLsb', BitVec.getLsbD_append] <;> interval_cases i <;> simp

/-- Encoding what a word's fields say gives the word with the `-` bits of its layout cleared (R82, R86, R87). -/
theorem encode_ofWord {p : Params} {w : Word} {m : Mnemonic} (h : p.opc.of m = opField w) :
    encode p (Instr.ofWord w m) = some (w &&& ~~~(ignoredMask m.cls)) := by
  have kR : encodeR (opField w) (rdField w).toNat (rs1Field w).toNat (rs2Field w).toNat =
      some (w &&& ~~~(ignoredMask .r)) := by
    rw [encodeR_eq, rebuild_R]
  have kI : encodeI (opField w) (rdField w).toNat (rs1Field w).toNat (immI w) =
      some (w &&& ~~~(ignoredMask .i)) := by
    rw [immI, encodeI_eq, rebuild_I]
  have kB : encodeSB (opField w) (rs1Field w).toNat (rs2Field w).toNat (immSB w) =
      some (w &&& ~~~(ignoredMask .sb)) := by
    obtain ⟨e1, e2⟩ := sb_parts (w.extractLsb' 25 7) (w.extractLsb' 7 5)
    rw [immSB, encodeSB_eq, e1, e2, rebuild_SB]
  have kJ : encodeJ (opField w) (rdField w).toNat (immJ w) = some (w &&& ~~~(ignoredMask .j)) := by
    have e : w &&& ~~~(ignoredMask .j) = w := by
      rw [show ~~~(ignoredMask .j) = BitVec.allOnes 32 from rfl, BitVec.and_allOnes]
    rw [immJ, encodeJ_eq, rebuild_J, e]
  cases m <;> simp only [Instr.ofWord, encode, h, kR, kI, kB, kJ, Mnemonic.cls]

end Sys2Proof
end

