-- ==== Sys2Proof/Laws/Memory.lean ====
section
/-! SUPPORT. The laws of memory: a read after a write, every other byte, words, and that every operation keeps the
canonical form. -/

namespace Sys2Proof.Machine

/-! ### Bytes (R50, R52, R54) -/

@[simp] theorem Memory.byteAt_zero (a : Nat) : Memory.zero.byteAt a = 0 := rfl

theorem byteAtCells_filter_same (cs : List Host.Cell) (a : Nat) :
    byteAtCells (cs.filter fun c => c.1 != a) a = 0 := by
  induction cs with
  | nil => rfl
  | cons c rest ih =>
    by_cases h : c.1 = a
    · simp [h, ih]
    · simp [h, byteAtCells, ih]

theorem byteAtCells_filter_ne (cs : List Host.Cell) {a b : Nat} (h : b ≠ a) :
    byteAtCells (cs.filter fun c => c.1 != a) b = byteAtCells cs b := by
  induction cs with
  | nil => rfl
  | cons c rest ih =>
    by_cases hc : c.1 = a
    · have : c.1 ≠ b := fun e => h (e ▸ hc)
      simp [hc, byteAtCells, ih, Ne.symm h]
    · simp [hc, byteAtCells, ih]

theorem byteAtCells_insert_same (cs : List Host.Cell) (a : Nat) (v : Byte) (h : ∀ c ∈ cs, c.1 ≠ a) :
    byteAtCells (insertCell a v cs) a = v := by
  induction cs with
  | nil => simp [insertCell, byteAtCells]
  | cons c rest ih =>
    have hc : c.1 ≠ a := h c (by simp)
    unfold insertCell
    split
    · simp [byteAtCells]
    · simp [byteAtCells, hc, ih fun d hd => h d (by simp [hd])]

theorem byteAtCells_insert_ne (cs : List Host.Cell) {a b : Nat} (v : Byte) (h : b ≠ a) :
    byteAtCells (insertCell a v cs) b = byteAtCells cs b := by
  induction cs with
  | nil => simp [insertCell, byteAtCells, Ne.symm h]
  | cons c rest ih =>
    unfold insertCell
    split
    · simp [byteAtCells, Ne.symm h]
    · simp [byteAtCells, ih]

/-- A byte read sees the last write to its address, whatever the list's form. -/
@[simp] theorem Memory.byteAt_setByte_same (m : Memory) (a : Nat) (v : Byte) : (m.setByte a v).byteAt a = v := by
  unfold Memory.byteAt Memory.setByte
  by_cases hv : v = 0
  · simp [hv, byteAtCells_filter_same]
  · simp only [hv, if_false]
    exact byteAtCells_insert_same _ a v fun c hc => by simpa using (List.mem_filter.mp hc).2

/-- A byte write leaves every other byte. -/
theorem Memory.byteAt_setByte_ne (m : Memory) {a b : Nat} (v : Byte) (h : b ≠ a) :
    (m.setByte a v).byteAt b = m.byteAt b := by
  unfold Memory.byteAt Memory.setByte
  by_cases hv : v = 0
  · simp only [hv, if_true, byteAtCells_filter_ne _ h]
  · simp only [hv, if_false, byteAtCells_insert_ne _ v h, byteAtCells_filter_ne _ h]

theorem Memory.byteAt_setByte (m : Memory) (a b : Nat) (v : Byte) :
    (m.setByte a v).byteAt b = if b = a then v else m.byteAt b := by
  by_cases h : b = a
  · simp [h]
  · simp [h, m.byteAt_setByte_ne v h]

/-! ### Words (R53, R55, R58) -/

/-- A word is its four bytes, the most significant first (R53, R55). -/
@[simp] theorem wordOfBytes_byteOfWord (w : Word) :
    wordOfBytes (byteOfWord w 0) (byteOfWord w 1) (byteOfWord w 2) (byteOfWord w 3) = w := by
  apply BitVec.eq_of_getLsbD_eq
  intro i hi
  simp only [wordOfBytes, byteOfWord, BitVec.getLsbD_append, BitVec.getLsbD_extractLsb']
  by_cases h0 : i < 8
  · simp [h0]
  · by_cases h1 : i < 16
    · have : i - 8 < 8 := by omega
      have e : 8 + (i - 8) = i := by omega
      simp [h0, this, e]
    · by_cases h2 : i < 24
      · have h3 : ¬ i - 8 < 8 := by omega
        have h4 : i - 8 - 8 < 8 := by omega
        have e : 16 + (i - 8 - 8) = i := by omega
        simp [h0, h3, h4, e]
      · have h3 : ¬ i - 8 < 8 := by omega
        have h4 : ¬ i - 8 - 8 < 8 := by omega
        have h5 : i - 8 - 8 - 8 < 8 := by omega
        have e : 24 + (i - 8 - 8 - 8) = i := by omega
        simp [h0, h3, h4, h5, e]

/-- The byte at `b` after a word is stored at `a`: byte `b - a` of the word inside it, else as before (R55). -/
theorem Memory.byteAt_setWord (m : Memory) (a b : Nat) (w : Word) :
    (m.setWord a w).byteAt b = if a ≤ b ∧ b < a + 4 then byteOfWord w (b - a) else m.byteAt b := by
  unfold Memory.setWord
  simp only [Memory.byteAt_setByte]
  by_cases h3 : b = a + 3
  · simp [h3]
  · by_cases h2 : b = a + 2
    · simp [h2]
    · by_cases h1 : b = a + 1
      · simp [h1]
      · by_cases h0 : b = a
        · simp [h0]
        · have : ¬ (a ≤ b ∧ b < a + 4) := by omega
          simp [h0, h1, h2, h3, this]

/-- A word read sees the word stored at its address (R53, R55). -/
@[simp] theorem Memory.wordAt_setWord_same (m : Memory) (a : Nat) (w : Word) : (m.setWord a w).wordAt a = w := by
  simp [Memory.wordAt, Memory.byteAt_setWord]

/-- Byte `k` of the word read at `a` is the byte at `a + k` (R58). -/
theorem Memory.byteOfWord_wordAt (m : Memory) (a : Nat) {k : Nat} (h : k < 4) :
    byteOfWord (m.wordAt a) k = m.byteAt (a + k) := by
  unfold byteOfWord Memory.wordAt wordOfBytes
  apply BitVec.eq_of_getLsbD_eq
  intro i hi
  interval_cases k <;> simp only [BitVec.getLsbD_extractLsb', BitVec.getLsbD_append] <;> interval_cases i <;> simp

/-- A word read depends on the four bytes alone. -/
theorem Memory.wordAt_congr {m n : Memory} {a : Nat} (h : ∀ b, a ≤ b → b < a + 4 → m.byteAt b = n.byteAt b) :
    m.wordAt a = n.wordAt a := by
  simp [Memory.wordAt, h a, h (a + 1), h (a + 2), h (a + 3)]

/-! ### Bounds (R51, R56) -/

theorem Memory.readWord_of_inBounds (m : Memory) {a : Word} (h : InBounds a 4) :
    m.readWord a = some (m.wordAt a.toNat) := by simp [Memory.readWord, h]
theorem Memory.readWord_of_not_inBounds (m : Memory) {a : Word} (h : ¬ InBounds a 4) :
    m.readWord a = none := by simp [Memory.readWord, h]
theorem Memory.readByte_of_inBounds (m : Memory) {a : Word} (h : InBounds a 1) :
    m.readByte a = some (m.byteAt a.toNat) := by simp [Memory.readByte, h]
theorem Memory.readByte_of_not_inBounds (m : Memory) {a : Word} (h : ¬ InBounds a 1) :
    m.readByte a = none := by simp [Memory.readByte, h]
theorem Memory.writeWord_of_inBounds (m : Memory) {a : Word} (v : Word) (h : InBounds a 4) :
    m.writeWord a v = some (m.setWord a.toNat v) := by simp [Memory.writeWord, h]
theorem Memory.writeWord_of_not_inBounds (m : Memory) {a : Word} (v : Word) (h : ¬ InBounds a 4) :
    m.writeWord a v = none := by simp [Memory.writeWord, h]
theorem Memory.writeByte_of_inBounds (m : Memory) {a : Word} (v : Byte) (h : InBounds a 1) :
    m.writeByte a v = some (m.setByte a.toNat v) := by simp [Memory.writeByte, h]
theorem Memory.writeByte_of_not_inBounds (m : Memory) {a : Word} (v : Byte) (h : ¬ InBounds a 1) :
    m.writeByte a v = none := by simp [Memory.writeByte, h]

/-! ### The canonical form -/

theorem Memory.zero_wf : Memory.zero.wf := ⟨List.Pairwise.nil, fun _ h => nomatch h⟩

theorem mem_insertCell {a : Nat} {v : Byte} {cs : List Host.Cell} {c : Host.Cell} :
    c ∈ insertCell a v cs ↔ c = (a, v) ∨ c ∈ cs := by
  induction cs with
  | nil => simp [insertCell]
  | cons d rest ih =>
    unfold insertCell
    split
    · simp
    · simp only [List.mem_cons, ih]; tauto

theorem insertCell_pairwise {a : Nat} {v : Byte} {cs : List Host.Cell}
    (hs : cs.Pairwise (fun c d => c.1 < d.1)) (ha : ∀ c ∈ cs, c.1 ≠ a) :
    (insertCell a v cs).Pairwise (fun c d => c.1 < d.1) := by
  induction cs with
  | nil => simp [insertCell]
  | cons d rest ih =>
    have hd := List.pairwise_cons.mp hs
    unfold insertCell
    split
    · rename_i h
      refine List.pairwise_cons.mpr ⟨fun c hc => ?_, hs⟩
      rcases List.mem_cons.mp hc with rfl | hc
      · exact h
      · exact Nat.lt_trans h (hd.1 c hc)
    · rename_i h
      refine List.pairwise_cons.mpr ⟨fun c hc => ?_, ih hd.2 fun c hc => ha c (by simp [hc])⟩
      rcases mem_insertCell.mp hc with rfl | hc
      · have := ha d (by simp)
        show d.1 < a
        omega
      · exact hd.1 c hc

/-- A byte write keeps the canonical form. -/
theorem Memory.setByte_wf {m : Memory} (h : m.wf) {a : Nat} (ha : a < memSize) (v : Byte) :
    (m.setByte a v).wf := by
  have hp : (m.cells.filter fun c => c.1 != a).Pairwise (fun c d => c.1 < d.1) := h.1.filter _
  have hb : ∀ c ∈ m.cells.filter (fun c => c.1 != a), c.2 ≠ 0 ∧ c.1 < memSize :=
    fun c hc => h.2 c (List.mem_filter.mp hc).1
  unfold Memory.setByte
  by_cases hv : v = 0
  · simp only [hv, if_true]; exact ⟨hp, hb⟩
  · simp only [hv, if_false]
    refine ⟨insertCell_pairwise hp fun c hc => by simpa using (List.mem_filter.mp hc).2, fun c hc => ?_⟩
    rcases mem_insertCell.mp hc with rfl | hc
    · exact ⟨hv, ha⟩
    · exact hb c hc

/-- A word write keeps the canonical form. -/
theorem Memory.setWord_wf {m : Memory} (h : m.wf) {a : Nat} (ha : a + 4 ≤ memSize) (v : Word) :
    (m.setWord a v).wf := by
  unfold Memory.setWord
  exact Memory.setByte_wf (Memory.setByte_wf (Memory.setByte_wf (Memory.setByte_wf h (by omega) _) (by omega) _)
    (by omega) _) (by omega) _

theorem Memory.writeByte_wf {m m' : Memory} (h : m.wf) {a : Word} {v : Byte} (hw : m.writeByte a v = some m') :
    m'.wf := by
  by_cases hb : InBounds a 1
  · rw [m.writeByte_of_inBounds v hb] at hw
    cases hw
    exact Memory.setByte_wf h (Nat.lt_of_succ_le hb) v
  · simp [m.writeByte_of_not_inBounds v hb] at hw

theorem Memory.writeWord_wf {m m' : Memory} (h : m.wf) {a : Word} {v : Word} (hw : m.writeWord a v = some m') :
    m'.wf := by
  by_cases hb : InBounds a 4
  · rw [m.writeWord_of_inBounds v hb] at hw
    cases hw
    exact Memory.setWord_wf h hb v
  · simp [m.writeWord_of_not_inBounds v hb] at hw

/-- The host's load keeps the canonical form. -/
theorem Memory.loadImage_wf {m : Memory} (h : m.wf) {image : List Host.Cell} (hi : ∀ c ∈ image, c.1 < memSize) :
    (m.loadImage image).wf := by
  induction image generalizing m with
  | nil => exact h
  | cons c rest ih =>
    exact ih (Memory.setByte_wf h (hi c (by simp)) c.2) fun d hd => hi d (by simp [hd])

/-- A load leaves every byte that the image does not name. -/
theorem Memory.byteAt_loadImage_ne (m : Memory) {image : List Host.Cell} {a : Nat} (h : ∀ c ∈ image, c.1 ≠ a) :
    (m.loadImage image).byteAt a = m.byteAt a := by
  induction image generalizing m with
  | nil => rfl
  | cons c rest ih =>
    rw [Memory.loadImage, ih _ fun d hd => h d (by simp [hd])]
    exact m.byteAt_setByte_ne c.2 (h c (by simp)).symm

/-- A load writes the last byte that the image gives an address. -/
theorem Memory.byteAt_loadImage_last (m : Memory) (pre : List Host.Cell) (a : Nat) (v : Byte) {post : List Host.Cell}
    (h : ∀ c ∈ post, c.1 ≠ a) : (m.loadImage (pre ++ (a, v) :: post)).byteAt a = v := by
  induction pre generalizing m with
  | nil => rw [List.nil_append, Memory.loadImage, Memory.byteAt_loadImage_ne _ h]; simp
  | cons c rest ih => exact ih _

/-- Canonical memories that read alike are equal data. -/
theorem Memory.ext_of_wf {m n : Memory} (hm : m.wf) (hn : n.wf) (h : ∀ a, m.byteAt a = n.byteAt a) : m = n := by
  have below : ∀ (cs : List Host.Cell) (b : Nat), (∀ c ∈ cs, b < c.1) → byteAtCells cs b = 0 := by
    intro cs b hb
    induction cs with
    | nil => rfl
    | cons c rest ih =>
      have : c.1 ≠ b := by have := hb c (by simp); omega
      simp [byteAtCells, this, ih fun d hd => hb d (by simp [hd])]
  have key : ∀ cs ds : List Host.Cell, cs.Pairwise (fun c d => c.1 < d.1) → (∀ c ∈ cs, c.2 ≠ 0) →
      ds.Pairwise (fun c d => c.1 < d.1) → (∀ d ∈ ds, d.2 ≠ 0) →
      (∀ a, byteAtCells cs a = byteAtCells ds a) → cs = ds := by
    intro cs
    induction cs with
    | nil =>
      intro ds _ _ _ hd h
      cases ds with
      | nil => rfl
      | cons d rest =>
        have := h d.1
        simp [byteAtCells] at this
        exact absurd this.symm (hd d (by simp))
    | cons c cs ih =>
      intro ds hp hc hq hd h
      cases ds with
      | nil =>
        have := h c.1
        simp [byteAtCells] at this
        exact absurd this (hc c (by simp))
      | cons d ds =>
        have hp' := List.pairwise_cons.mp hp
        have hq' := List.pairwise_cons.mp hq
        have e1 : c.1 = d.1 := by
          rcases Nat.lt_trichotomy c.1 d.1 with lt | eq | gt
          · have := h c.1
            have hz : byteAtCells (d :: ds) c.1 = 0 := below _ _ fun e he => by
              rcases List.mem_cons.mp he with rfl | he
              · exact lt
              · exact Nat.lt_trans lt (hq'.1 e he)
            rw [hz] at this
            simp [byteAtCells] at this
            exact absurd this (hc c (by simp))
          · exact eq
          · have := h d.1
            have hz : byteAtCells (c :: cs) d.1 = 0 := below _ _ fun e he => by
              rcases List.mem_cons.mp he with rfl | he
              · exact gt
              · exact Nat.lt_trans gt (hp'.1 e he)
            rw [hz] at this
            simp [byteAtCells] at this
            exact absurd this.symm (hd d (by simp))
        have e2 : c.2 = d.2 := by have := h c.1; simpa [byteAtCells, e1] using this
        have ecd : c = d := Prod.ext e1 e2
        subst ecd
        refine congrArg (c :: ·) (ih ds hp'.2 (fun e he => hc e (by simp [he])) hq'.2
          (fun e he => hd e (by simp [he])) fun a => ?_)
        by_cases ha : c.1 = a
        · rw [below cs a (fun e he => ha ▸ hp'.1 e he), below ds a (fun e he => ha ▸ hq'.1 e he)]
        · have := h a
          simpa [byteAtCells, ha] using this
  cases m; cases n
  exact congrArg Memory.mk (key _ _ hm.1 (fun c hc => (hm.2 c hc).1) hn.1 (fun c hc => (hn.2 c hc).1) h)

end Sys2Proof.Machine
end

