-- ==== Sys2Proof/Laws/State.lean ====
section
/-! SUPPORT. What each update of the state does to each field: one lemma per field per update, and the register
lemmas. -/

namespace Sys2Proof.Machine


/-! ### setReg -/

@[simp] theorem State.setReg_x (s : State) (r : RegIdx) (v : Word) : (s.setReg r v).x = s.x.set r.toNat v r.isLt := rfl
@[simp] theorem State.setReg_pc (s : State) (r : RegIdx) (v : Word) : (s.setReg r v).pc = s.pc := rfl
@[simp] theorem State.setReg_mem (s : State) (r : RegIdx) (v : Word) : (s.setReg r v).mem = s.mem := rfl
@[simp] theorem State.setReg_cycles (s : State) (r : RegIdx) (v : Word) : (s.setReg r v).cycles = s.cycles := rfl
@[simp] theorem State.setReg_instret (s : State) (r : RegIdx) (v : Word) : (s.setReg r v).instret = s.instret := rfl
@[simp] theorem State.setReg_status (s : State) (r : RegIdx) (v : Word) : (s.setReg r v).status = s.status := rfl
@[simp] theorem State.setReg_params (s : State) (r : RegIdx) (v : Word) : (s.setReg r v).params = s.params := rfl

/-! ### setPc -/

@[simp] theorem State.setPc_x (s : State) (t : Word) : (s.setPc t).x = s.x := rfl
@[simp] theorem State.setPc_pc (s : State) (t : Word) : (s.setPc t).pc = t := rfl
@[simp] theorem State.setPc_mem (s : State) (t : Word) : (s.setPc t).mem = s.mem := rfl
@[simp] theorem State.setPc_cycles (s : State) (t : Word) : (s.setPc t).cycles = s.cycles := rfl
@[simp] theorem State.setPc_instret (s : State) (t : Word) : (s.setPc t).instret = s.instret := rfl
@[simp] theorem State.setPc_status (s : State) (t : Word) : (s.setPc t).status = s.status := rfl
@[simp] theorem State.setPc_params (s : State) (t : Word) : (s.setPc t).params = s.params := rfl

/-! ### advance -/

@[simp] theorem State.advance_x (s : State) : s.advance.x = s.x := rfl
@[simp] theorem State.advance_pc (s : State) : s.advance.pc = s.pc + 4 := rfl
@[simp] theorem State.advance_mem (s : State) : s.advance.mem = s.mem := rfl
@[simp] theorem State.advance_cycles (s : State) : s.advance.cycles = s.cycles := rfl
@[simp] theorem State.advance_instret (s : State) : s.advance.instret = s.instret := rfl
@[simp] theorem State.advance_status (s : State) : s.advance.status = s.status := rfl
@[simp] theorem State.advance_params (s : State) : s.advance.params = s.params := rfl

/-! ### setMem -/

@[simp] theorem State.setMem_x (s : State) (m : Memory) : (s.setMem m).x = s.x := rfl
@[simp] theorem State.setMem_pc (s : State) (m : Memory) : (s.setMem m).pc = s.pc := rfl
@[simp] theorem State.setMem_mem (s : State) (m : Memory) : (s.setMem m).mem = m := rfl
@[simp] theorem State.setMem_cycles (s : State) (m : Memory) : (s.setMem m).cycles = s.cycles := rfl
@[simp] theorem State.setMem_instret (s : State) (m : Memory) : (s.setMem m).instret = s.instret := rfl
@[simp] theorem State.setMem_status (s : State) (m : Memory) : (s.setMem m).status = s.status := rfl
@[simp] theorem State.setMem_params (s : State) (m : Memory) : (s.setMem m).params = s.params := rfl

/-! ### writeAndAdvance -/

@[simp] theorem State.writeAndAdvance_x (s : State) (rd : RegIdx) (v : Word) : (s.writeAndAdvance rd v).x = s.x.set rd.toNat v rd.isLt := rfl
@[simp] theorem State.writeAndAdvance_pc (s : State) (rd : RegIdx) (v : Word) : (s.writeAndAdvance rd v).pc = s.pc + 4 := rfl
@[simp] theorem State.writeAndAdvance_mem (s : State) (rd : RegIdx) (v : Word) : (s.writeAndAdvance rd v).mem = s.mem := rfl
@[simp] theorem State.writeAndAdvance_cycles (s : State) (rd : RegIdx) (v : Word) : (s.writeAndAdvance rd v).cycles = s.cycles := rfl
@[simp] theorem State.writeAndAdvance_instret (s : State) (rd : RegIdx) (v : Word) : (s.writeAndAdvance rd v).instret = s.instret := rfl
@[simp] theorem State.writeAndAdvance_status (s : State) (rd : RegIdx) (v : Word) : (s.writeAndAdvance rd v).status = s.status := rfl
@[simp] theorem State.writeAndAdvance_params (s : State) (rd : RegIdx) (v : Word) : (s.writeAndAdvance rd v).params = s.params := rfl

/-! ### halt -/

@[simp] theorem State.halt_x (s : State) : s.halt.x = s.x := rfl
@[simp] theorem State.halt_pc (s : State) : s.halt.pc = s.pc := rfl
@[simp] theorem State.halt_mem (s : State) : s.halt.mem = s.mem := rfl
@[simp] theorem State.halt_cycles (s : State) : s.halt.cycles = s.cycles := rfl
@[simp] theorem State.halt_instret (s : State) : s.halt.instret = s.instret := rfl
@[simp] theorem State.halt_status (s : State) : s.halt.status = .halted := rfl
@[simp] theorem State.halt_params (s : State) : s.halt.params = s.params := rfl

/-! ### raiseFatal -/

@[simp] theorem State.raiseFatal_x (s : State) (k : FaultKind) (a : Word) : (s.raiseFatal k a).x = s.x := rfl
@[simp] theorem State.raiseFatal_pc (s : State) (k : FaultKind) (a : Word) : (s.raiseFatal k a).pc = s.pc := rfl
@[simp] theorem State.raiseFatal_mem (s : State) (k : FaultKind) (a : Word) : (s.raiseFatal k a).mem = s.mem := rfl
@[simp] theorem State.raiseFatal_cycles (s : State) (k : FaultKind) (a : Word) : (s.raiseFatal k a).cycles = s.cycles := rfl
@[simp] theorem State.raiseFatal_instret (s : State) (k : FaultKind) (a : Word) : (s.raiseFatal k a).instret = s.instret := rfl
@[simp] theorem State.raiseFatal_status (s : State) (k : FaultKind) (a : Word) : (s.raiseFatal k a).status = .faulted ⟨k, a, s.pc⟩ := rfl
@[simp] theorem State.raiseFatal_params (s : State) (k : FaultKind) (a : Word) : (s.raiseFatal k a).params = s.params := rfl

/-! ### addCycles -/

@[simp] theorem State.addCycles_x (s : State) (n : Nat) : (s.addCycles n).x = s.x := rfl
@[simp] theorem State.addCycles_pc (s : State) (n : Nat) : (s.addCycles n).pc = s.pc := rfl
@[simp] theorem State.addCycles_mem (s : State) (n : Nat) : (s.addCycles n).mem = s.mem := rfl
@[simp] theorem State.addCycles_cycles (s : State) (n : Nat) : (s.addCycles n).cycles = (s.cycles + n) % 2 ^ s.params.cntWidth := rfl
@[simp] theorem State.addCycles_instret (s : State) (n : Nat) : (s.addCycles n).instret = s.instret := rfl
@[simp] theorem State.addCycles_status (s : State) (n : Nat) : (s.addCycles n).status = s.status := rfl
@[simp] theorem State.addCycles_params (s : State) (n : Nat) : (s.addCycles n).params = s.params := rfl

/-! ### retire -/

@[simp] theorem State.retire_x (s : State) : s.retire.x = s.x := rfl
@[simp] theorem State.retire_pc (s : State) : s.retire.pc = s.pc := rfl
@[simp] theorem State.retire_mem (s : State) : s.retire.mem = s.mem := rfl
@[simp] theorem State.retire_cycles (s : State) : s.retire.cycles = s.cycles := rfl
@[simp] theorem State.retire_instret (s : State) : s.retire.instret = (s.instret + 1) % 2 ^ s.params.cntWidth := rfl
@[simp] theorem State.retire_status (s : State) : s.retire.status = s.status := rfl
@[simp] theorem State.retire_params (s : State) : s.retire.params = s.params := rfl

/-! ### account -/

@[simp] theorem State.account_x (s : State) (i : Instr) : (s.account i).x = s.x := by
  unfold State.account; split
  · rfl
  · split <;> rfl
@[simp] theorem State.account_pc (s : State) (i : Instr) : (s.account i).pc = s.pc := by
  unfold State.account; split
  · rfl
  · split <;> rfl
@[simp] theorem State.account_mem (s : State) (i : Instr) : (s.account i).mem = s.mem := by
  unfold State.account; split
  · rfl
  · split <;> rfl
@[simp] theorem State.account_status (s : State) (i : Instr) : (s.account i).status = s.status := by
  unfold State.account; split
  · rfl
  · split <;> rfl
@[simp] theorem State.account_params (s : State) (i : Instr) : (s.account i).params = s.params := by
  unfold State.account; split
  · rfl
  · split <;> rfl
@[simp] theorem State.accountInvalid_x (s : State) : s.accountInvalid.x = s.x := rfl
@[simp] theorem State.accountInvalid_pc (s : State) : s.accountInvalid.pc = s.pc := rfl
@[simp] theorem State.accountInvalid_mem (s : State) : s.accountInvalid.mem = s.mem := rfl
@[simp] theorem State.accountInvalid_cycles (s : State) : s.accountInvalid.cycles = s.cycles := rfl
@[simp] theorem State.accountInvalid_instret (s : State) : s.accountInvalid.instret = (s.instret + 1) % 2 ^ s.params.cntWidth := rfl
@[simp] theorem State.accountInvalid_status (s : State) : s.accountInvalid.status = s.status := rfl
@[simp] theorem State.accountInvalid_params (s : State) : s.accountInvalid.params = s.params := rfl

/-! ### Registers (R21 to R24) -/

/-- A register read sees the last write to it, x0 included (R23). -/
@[simp] theorem State.reg_setReg_same (s : State) (r : RegIdx) (v : Word) : (s.setReg r v).reg r = v := by
  simp [State.reg, State.setReg]

/-- A register write leaves every other register. -/
theorem State.reg_setReg_ne (s : State) {r q : RegIdx} (v : Word) (h : q ≠ r) :
    (s.setReg r v).reg q = s.reg q := by
  have : r.toNat ≠ q.toNat := fun e => h (BitVec.eq_of_toNat_eq e.symm)
  simp [State.reg, State.setReg, Vector.getElem_set_ne, this]

/-- A register read depends on the register file alone. -/
theorem State.reg_congr {s t : State} (h : t.x = s.x) (r : RegIdx) : t.reg r = s.reg r := by
  simp [State.reg, h]

@[simp] theorem State.setPc_reg (s : State) (t : Word) (q : RegIdx) : (s.setPc t).reg q = s.reg q := rfl
@[simp] theorem State.advance_reg (s : State) (q : RegIdx) : s.advance.reg q = s.reg q := rfl
@[simp] theorem State.setMem_reg (s : State) (m : Memory) (q : RegIdx) : (s.setMem m).reg q = s.reg q := rfl
@[simp] theorem State.halt_reg (s : State) (q : RegIdx) : s.halt.reg q = s.reg q := rfl
@[simp] theorem State.raiseFatal_reg (s : State) (k : FaultKind) (a : Word) (q : RegIdx) : (s.raiseFatal k a).reg q = s.reg q := rfl
@[simp] theorem State.addCycles_reg (s : State) (n : Nat) (q : RegIdx) : (s.addCycles n).reg q = s.reg q := rfl
@[simp] theorem State.retire_reg (s : State) (q : RegIdx) : s.retire.reg q = s.reg q := rfl
@[simp] theorem State.account_reg (s : State) (i : Instr) (q : RegIdx) : (s.account i).reg q = s.reg q :=
  State.reg_congr (s.account_x i) q
@[simp] theorem State.accountInvalid_reg (s : State) (q : RegIdx) : s.accountInvalid.reg q = s.reg q := rfl
@[simp] theorem State.writeAndAdvance_reg_same (s : State) (rd : RegIdx) (v : Word) :
    (s.writeAndAdvance rd v).reg rd = v := by simp [State.writeAndAdvance]
theorem State.writeAndAdvance_reg_ne (s : State) {rd q : RegIdx} (v : Word) (h : q ≠ rd) :
    (s.writeAndAdvance rd v).reg q = s.reg q := by
  simp [State.writeAndAdvance, State.reg_setReg_ne s v h]

@[simp] theorem State.nextPc_eq (s : State) : s.nextPc = s.pc + 4 := rfl

/-- Every register of the reset state is 0 (R40). -/
@[simp] theorem State.reset_reg (r : RegIdx) : State.reset.reg r = 0 := by
  simp [State.reg, State.reset]

end Sys2Proof.Machine
end

