-- ==== Sys2Proof/Laws/Exec.lean ====
section
/-! SUPPORT. One spec lemma per shared operation of the meanings, and everything an instruction's meaning can do. -/

namespace Sys2Proof.Machine

/-! ### Operands (R12, R61, R126, R162, R181) -/

theorem imm32_toNat (imm : Nat) : (imm32 imm).toNat = imm % 2 ^ 32 := BitVec.toNat_ofNat imm 32

theorem effectiveAddress_toNat (s : State) (rs1 : RegIdx) (imm : Nat) :
    (effectiveAddress s rs1 imm).toNat = ((s.reg rs1).toNat + imm) % 2 ^ 32 := by
  simp [effectiveAddress, imm32]

theorem halfwordTarget_toNat (s : State) (imm : Nat) :
    (halfwordTarget s imm).toNat = (s.pc.toNat + 2 * imm) % 2 ^ 32 := by
  simp [halfwordTarget, imm32, BitVec.toNat_mul, Nat.mul_comm]

theorem nextPc_toNat (s : State) : s.nextPc.toNat = (s.pc.toNat + 4) % 2 ^ 32 := by
  simp [BitVec.toNat_add]

theorem shamt_le (mode : ShamtMode) (v : Word) : shamt mode v ≤ 32 := by
  cases mode <;> simp [shamt]
  omega

/-- A logical right shift is the quotient of the unsigned value, up to a shift of 32 (R124). -/
theorem shiftRightLogical_toNat (v : Word) {n : Nat} (h : n ≤ 32) :
    (shiftRightLogical v n).toNat = v.toNat / 2 ^ n := by
  unfold shiftRightLogical
  split
  · simp [Nat.shiftRight_eq_div_pow]
  · have : n = 32 := by omega
    subst this
    simpa using (Nat.div_eq_of_lt v.isLt).symm

/-- An arithmetic right shift is the quotient of the signed value rounded down, up to a shift of 32 (R125, R144). -/
theorem shiftRightArith_toInt (v : Word) {n : Nat} (h : n ≤ 32) :
    (shiftRightArith v n).toInt = v.toInt / 2 ^ n := by
  unfold shiftRightArith
  split
  · rw [BitVec.toInt_sshiftRight, Int.shiftRight_eq_div_pow]; norm_cast
  · have : n = 32 := by omega
    subst this
    have h1 := v.toInt_lt
    have h2 := v.le_toInt
    split
    · have e : (0xFFFFFFFF : Word).toInt = -1 := by decide
      rw [e]; omega
    · have e : (0 : Word).toInt = 0 := by decide
      rw [e]; omega

theorem widenByte_zero_toNat (b : Byte) : (widenByte .zero b).toNat = b.toNat := by
  have := b.isLt
  simp [widenByte]; omega

theorem widenByte_sign_toInt (b : Byte) : (widenByte .sign b).toInt = b.toInt := by
  simp [widenByte, BitVec.toInt_signExtend_of_le]

/-! ### Frames of the shared ends -/

theorem frame_setReg_setPc (s : State) (rd : RegIdx) (v p : Word) :
    FrameOfRegWrite rd s ((s.setReg rd v).setPc p) :=
  ⟨fun _ h => s.reg_setReg_ne v h, fun _ => rfl, ⟨rfl, rfl⟩, ⟨rfl, rfl⟩⟩

theorem frame_writeAndAdvance (s : State) (rd : RegIdx) (v : Word) :
    FrameOfRegWrite rd s (s.writeAndAdvance rd v) := frame_setReg_setPc s rd v _

theorem frame_setPc (s : State) (p : Word) : FrameOfBranch s (s.setPc p) :=
  ⟨fun _ => rfl, fun _ => rfl, ⟨rfl, rfl⟩, ⟨rfl, rfl⟩⟩

theorem frame_raiseFatal (s : State) (k : FaultKind) (a : Word) : FrameOfFatal s (s.raiseFatal k a) :=
  ⟨fun _ => rfl, fun _ => rfl, rfl, rfl⟩

/-! ### The templates, one spec lemma each -/

/-- The register-register template (R127). -/
theorem regReg_spec (f : Word → Word → Word) (rd rs1 rs2 : RegIdx) (s : State) :
    ∃ t, regReg f rd rs1 rs2 s = .next t ∧ t.reg rd = f (s.reg rs1) (s.reg rs2) ∧ t.pc = s.pc + 4 ∧
      FrameOfRegWrite rd s t :=
  ⟨_, rfl, by simp, rfl, frame_writeAndAdvance s rd _⟩

/-- The immediate template (R145). -/
theorem regImm_spec (f : Word → Word → Word) (rd rs1 : RegIdx) (imm : Nat) (s : State) :
    ∃ t, regImm f rd rs1 imm s = .next t ∧ t.reg rd = f (s.reg rs1) (imm32 imm) ∧ t.pc = s.pc + 4 ∧
      FrameOfRegWrite rd s t :=
  ⟨_, rfl, by simp, rfl, frame_writeAndAdvance s rd _⟩

/-- The branch template (R162). -/
theorem branchIf_spec (taken : Bool) (imm : Nat) (s : State) :
    ∃ t, branchIf taken imm s = .next t ∧
      t.pc.toNat = (if taken then s.pc.toNat + 2 * imm else s.pc.toNat + 4) % 2 ^ 32 ∧ FrameOfBranch s t := by
  refine ⟨_, rfl, ?_, frame_setPc s _⟩
  cases taken
  · simp [State.nextPc]
  · simpa using halfwordTarget_toNat s imm

/-- The end of a load whose access is in bounds (R180, R181). -/
theorem finishLoad_some (rd : RegIdx) (ea v : Word) (s : State) :
    finishLoad rd ea (some v) s = .next (s.writeAndAdvance rd v) := rfl

/-- The end of a load whose access is out of bounds (R184). -/
theorem finishLoad_none (rd : RegIdx) (ea : Word) (s : State) :
    finishLoad rd ea none s = .next (s.raiseFatal .loadOutOfBounds ea) := rfl

/-- The end of a store whose access is in bounds (R182, R183). -/
theorem finishStore_some (ea : Word) (m : Memory) (s : State) :
    finishStore ea (some m) s = .next (s.setMem m).advance := rfl

/-- The end of a store whose access is out of bounds (R184). -/
theorem finishStore_none (ea : Word) (s : State) :
    finishStore ea none s = .next (s.raiseFatal .storeOutOfBounds ea) := rfl

/-- jalr under WRITE_FIRST: the base is read after the link is written (R160). -/
theorem execJalr_writeFirst {s : State} (h : s.params.jalrOrder = .writeFirst) (rd rs1 : RegIdx) (imm : Nat) :
    execJalr rd rs1 imm s =
      .next ((s.setReg rd s.nextPc).setPc ((s.setReg rd s.nextPc).reg rs1 + imm32 imm)) := by
  simp only [execJalr, h]

/-- jalr under READ_FIRST (R160). -/
theorem execJalr_readFirst {s : State} (h : s.params.jalrOrder = .readFirst) (rd rs1 : RegIdx) (imm : Nat) :
    execJalr rd rs1 imm s = .next ((s.setReg rd s.nextPc).setPc (s.reg rs1 + imm32 imm)) := by
  simp only [execJalr, h]

/-- lw in bounds (R180). -/
theorem execLw_inBounds {rd rs1 : RegIdx} {imm : Nat} {s : State} (h : InBounds (effectiveAddress s rs1 imm) 4) :
    execLw rd rs1 imm s = .next (s.writeAndAdvance rd (s.mem.wordAt (effectiveAddress s rs1 imm).toNat)) := by
  simp only [execLw, s.mem.readWord_of_inBounds h, finishLoad_some]

/-- lb in bounds (R181). -/
theorem execLb_inBounds {rd rs1 : RegIdx} {imm : Nat} {s : State} (h : InBounds (effectiveAddress s rs1 imm) 1) :
    execLb rd rs1 imm s =
      .next (s.writeAndAdvance rd (widenByte s.params.lbExt (s.mem.byteAt (effectiveAddress s rs1 imm).toNat))) := by
  simp only [execLb, s.mem.readByte_of_inBounds h, Option.map_some, finishLoad_some]

/-- sw in bounds (R182). -/
theorem execSw_inBounds {rs1 rs2 : RegIdx} {imm : Nat} {s : State} (h : InBounds (effectiveAddress s rs1 imm) 4) :
    execSw rs1 rs2 imm s =
      .next (s.setMem (s.mem.setWord (effectiveAddress s rs1 imm).toNat (s.reg rs2))).advance := by
  simp only [execSw, s.mem.writeWord_of_inBounds _ h, finishStore_some]

/-- sb in bounds (R183). -/
theorem execSb_inBounds {rs1 rs2 : RegIdx} {imm : Nat} {s : State} (h : InBounds (effectiveAddress s rs1 imm) 1) :
    execSb rs1 rs2 imm s =
      .next (s.setMem (s.mem.setByte (effectiveAddress s rs1 imm).toNat ((s.reg rs2).extractLsb' 0 8))).advance := by
  simp only [execSb, s.mem.writeByte_of_inBounds _ h, finishStore_some]

/-- An access out of bounds takes the fatal error of its kind (R184). -/
theorem exec_outOfBounds {i : Instr} {s : State} {a : Word} {n : Nat} {k : FaultKind}
    (ha : accessOf s i = some (a, n)) (hk : i.accessFault? = some k) (h : ¬ InBounds a n) :
    exec i s = .next (s.raiseFatal k a) := by
  cases i <;> simp only [accessOf, Option.some.injEq, Prod.mk.injEq, reduceCtorEq] at ha <;>
    obtain ⟨rfl, rfl⟩ := ha <;> simp only [Instr.accessFault?, Option.some.injEq] at hk <;> subst hk
  · simp only [exec, execLw, s.mem.readWord_of_not_inBounds h, finishLoad_none]
  · simp only [exec, execLb, s.mem.readByte_of_not_inBounds h, Option.map_none, finishLoad_none]
  · simp only [exec, execSw, s.mem.writeWord_of_not_inBounds _ h, finishStore_none]
  · simp only [exec, execSb, s.mem.writeByte_of_not_inBounds _ h, finishStore_none]

/-! ### Everything a meaning can do -/

/-- The effects an instruction can have on a state: the guards say which instruction and when. -/
inductive Effect (i : Instr) (s : State) : State → Prop where
  /-- One register and the pc (R127, R145, R160, R167, R180, R181). -/
  | write (rd : RegIdx) (v p : Word) (hd : i.dest? = some rd)
      (hin : ∀ a n, accessOf s i = some (a, n) → InBounds a n)
      (hp : (∃ rd rs1 imm, i = .jalr rd rs1 imm) ∨ (∃ rd imm, i = .jal rd imm ∧ p = halfwordTarget s imm) ∨
        p = s.pc + 4) : Effect i s ((s.setReg rd v).setPc p)
  /-- The pc alone (R162). -/
  | branch (imm : Nat) (p : Word) (hd : i.dest? = none) (ha : accessOf s i = none) (hh : i ≠ .halt)
      (hi : i.wellFormed = true → imm < 2 ^ 12) (hp : p = halfwordTarget s imm ∨ p = s.pc + 4) : Effect i s (s.setPc p)
  /-- Memory and the pc (R182, R183). -/
  | store (m : Memory) (hd : i.dest? = none) (hh : i ≠ .halt) (hin : ∀ a n, accessOf s i = some (a, n) → InBounds a n)
      (hm : s.mem.wf → m.wf) : Effect i s (s.setMem m).advance
  /-- The fatal error of an access out of bounds (R184). -/
  | fatal (a : Word) (n : Nat) (k : FaultKind) (ha : accessOf s i = some (a, n)) (hk : i.accessFault? = some k)
      (hout : ¬ InBounds a n) : Effect i s (s.raiseFatal k a)
  /-- HALT (R200). -/
  | halt (h : i = .halt) : Effect i s s.halt

/-- Every meaning answers a next state, and it is one of the effects. -/
theorem exec_effect (i : Instr) (s : State) : ∃ t, exec i s = .next t ∧ Effect i s t := by
  have W : ∀ (rd : RegIdx) (v : Word), i.dest? = some rd → (∀ a n, accessOf s i = some (a, n) → InBounds a n) →
      Effect i s (s.writeAndAdvance rd v) := fun rd v hd hin => .write rd v _ hd hin (.inr (.inr rfl))
  have B : ∀ (taken : Bool) (imm : Nat), i.dest? = none → accessOf s i = none → i ≠ .halt →
      (i.wellFormed = true → imm < 2 ^ 12) →
      Effect i s (s.setPc (if taken then halfwordTarget s imm else s.nextPc)) := fun taken imm hd ha hh hi => by
    refine .branch imm _ hd ha hh hi ?_
    cases taken
    · exact .inr rfl
    · exact .inl rfl
  cases hi : i with
  | add _ _ _ | sub _ _ _ | xor _ _ _ | and _ _ _ | srl _ _ _ | sra _ _ _ | addi _ _ _ | subi _ _ _ | xori _ _ _ | slti _ _ _ | srai _ _ _ =>
    subst hi; exact ⟨_, rfl, W _ _ rfl (by simp [accessOf])⟩
  | beq _ _ _ | bge _ _ _ | blt _ _ _ =>
    subst hi; exact ⟨_, rfl, B _ _ rfl rfl (by simp) of_decide_eq_true⟩
  | jal rd imm => exact ⟨_, rfl, .write _ _ _ rfl (by simp [accessOf]) (.inr (.inl ⟨_, _, rfl, rfl⟩))⟩
  | jalr rd rs1 imm =>
    cases ho : s.params.jalrOrder
    · exact ⟨_, execJalr_writeFirst ho rd rs1 imm, .write _ _ _ rfl (by simp [accessOf]) (.inl ⟨_, _, _, rfl⟩)⟩
    · exact ⟨_, execJalr_readFirst ho rd rs1 imm, .write _ _ _ rfl (by simp [accessOf]) (.inl ⟨_, _, _, rfl⟩)⟩
  | lw rd rs1 imm =>
    subst hi
    by_cases h : InBounds (effectiveAddress s rs1 imm) 4
    · refine ⟨_, execLw_inBounds h, W _ _ rfl fun a n e => ?_⟩
      simp only [accessOf, Option.some.injEq, Prod.mk.injEq] at e; exact e.1 ▸ e.2 ▸ h
    · exact ⟨_, exec_outOfBounds rfl rfl h, .fatal _ _ _ rfl rfl h⟩
  | lb rd rs1 imm =>
    subst hi
    by_cases h : InBounds (effectiveAddress s rs1 imm) 1
    · refine ⟨_, execLb_inBounds h, W _ _ rfl fun a n e => ?_⟩
      simp only [accessOf, Option.some.injEq, Prod.mk.injEq] at e; exact e.1 ▸ e.2 ▸ h
    · exact ⟨_, exec_outOfBounds rfl rfl h, .fatal _ _ _ rfl rfl h⟩
  | sw rs1 rs2 imm =>
    by_cases h : InBounds (effectiveAddress s rs1 imm) 4
    · refine ⟨_, execSw_inBounds h, .store _ rfl (by simp) (fun a n e => ?_) fun hm => Memory.setWord_wf hm h _⟩
      simp only [accessOf, Option.some.injEq, Prod.mk.injEq] at e; exact e.1 ▸ e.2 ▸ h
    · exact ⟨_, exec_outOfBounds rfl rfl h, .fatal _ _ _ rfl rfl h⟩
  | sb rs1 rs2 imm =>
    by_cases h : InBounds (effectiveAddress s rs1 imm) 1
    · refine ⟨_, execSb_inBounds h, .store _ rfl (by simp) (fun a n e => ?_) fun hm =>
        Memory.setByte_wf hm (Nat.lt_of_succ_le h) _⟩
      simp only [accessOf, Option.some.injEq, Prod.mk.injEq] at e; exact e.1 ▸ e.2 ▸ h
    · exact ⟨_, exec_outOfBounds rfl rfl h, .fatal _ _ _ rfl rfl h⟩
  | halt => exact ⟨_, rfl, .halt rfl⟩

/-- What an instruction answers is one of its effects. -/
theorem effect_of_exec {i : Instr} {s t : State} (h : exec i s = .next t) : Effect i s t := by
  obtain ⟨u, hu, he⟩ := exec_effect i s
  rw [hu] at h; cases h; exact he

/-- No effect touches the parameters or the counters, and a terminal status comes only from a fatal error or HALT. -/
theorem Effect.params {i : Instr} {s t : State} (h : Effect i s t) : t.params = s.params := by cases h <;> rfl
theorem Effect.counters {i : Instr} {s t : State} (h : Effect i s t) : CountersKept s t := by
  cases h <;> exact ⟨rfl, rfl⟩
theorem Effect.status {i : Instr} {s t : State} (h : Effect i s t) :
    t.status = s.status ∨ (∃ a n k, accessOf s i = some (a, n) ∧ i.accessFault? = some k ∧ ¬ InBounds a n ∧
      t = s.raiseFatal k a) ∨ (i = .halt ∧ t = s.halt) := by
  cases h with
  | write => exact .inl rfl
  | branch => exact .inl rfl
  | store => exact .inl rfl
  | fatal a n k ha hk hout => exact .inr (.inl ⟨a, n, k, ha, hk, hout, rfl⟩)
  | halt h => exact .inr (.inr ⟨h, rfl⟩)
theorem Effect.mem_wf {i : Instr} {s t : State} (h : Effect i s t) (hm : s.mem.wf) : t.mem.wf := by
  cases h with
  | store m _ _ _ hw => exact hw hm
  | write | branch | fatal | halt => exact hm

end Sys2Proof.Machine
end

