-- ==== Sys2Proof/Laws/Step.lean ====
section
/-! SUPPORT. Everything a step can do, said once (spec/40_step.md R100 to R107). -/

namespace Sys2Proof.Machine

/-! ### Fetch (R100, R101) -/

theorem fetch_ok {s : State} (h : s.Fetchable) : s.fetch = .ok (s.mem.wordAt s.pc.toNat) := by
  unfold State.fetch; rw [s.mem.readWord_of_inBounds h.1]; exact if_pos h

theorem fetch_outOfBounds {s : State} (h : ¬ InBounds s.pc 4) : s.fetch = .error .fetchOutOfBounds := by
  unfold State.fetch; rw [s.mem.readWord_of_not_inBounds h]

theorem fetch_misaligned {s : State} (hb : InBounds s.pc 4) (h : ¬ s.Fetchable) :
    s.fetch = .error .misalignedFetch := by
  unfold State.fetch; rw [s.mem.readWord_of_inBounds hb]; exact if_neg h

/-- The three outcomes of a fetch. -/
theorem fetch_cases (s : State) :
    (¬ InBounds s.pc 4) ∨
    (InBounds s.pc 4 ∧ ¬ Aligned s.pc ∧ s.params.misalignedFetch = .fault ∧ ¬ s.Fetchable) ∨ s.Fetchable := by
  by_cases hb : InBounds s.pc 4
  · by_cases ha : Aligned s.pc
    · exact .inr (.inr ⟨hb, .inl ha⟩)
    · cases hm : s.params.misalignedFetch
      · exact .inr (.inl ⟨hb, ha, rfl, fun h => by rcases h.2 with h | h <;> simp_all⟩)
      · exact .inr (.inr ⟨hb, .inr hm⟩)
  · exact .inl hb

/-! ### The step of a RUNNING state -/

theorem step_outOfBounds {s : State} (hr : s.status = .running) (h : ¬ InBounds s.pc 4) :
    step s = .next (s.raiseFatal .fetchOutOfBounds s.pc) := by
  simp only [step, hr, runningStep, fetch_outOfBounds h]

theorem step_misaligned {s : State} (hr : s.status = .running) (hb : InBounds s.pc 4) (h : ¬ s.Fetchable) :
    step s = .next (s.raiseFatal .misalignedFetch s.pc) := by
  simp only [step, hr, runningStep, fetch_misaligned hb h]

theorem step_fetchable {s : State} (hr : s.status = .running) (h : s.Fetchable) :
    step s = runWord s (s.mem.wordAt s.pc.toNat) := by
  simp only [step, hr, runningStep, fetch_ok h]

theorem step_instr {s : State} {i : Instr} (hr : s.status = .running) (h : s.Fetchable)
    (hd : decodeWord s.params (s.mem.wordAt s.pc.toNat) = .ok i) : step s = exec i (s.account i) := by
  rw [step_fetchable hr h, runWord, hd]

theorem step_invalid {s : State} {r : Reject} (hr : s.status = .running) (h : s.Fetchable)
    (hd : decodeWord s.params (s.mem.wordAt s.pc.toNat) = .error r) : step s = execInvalid s.accountInvalid := by
  rw [step_fetchable hr h, runWord, hd]

/-- INVALID answers the same state under SPIN and the fatal error under FAULT (R202). -/
theorem execInvalid_cases (s : State) :
    (s.params.invalidPolicy = .spin ∧ execInvalid s = .next s) ∨
    (s.params.invalidPolicy = .fault ∧ execInvalid s = .next (s.raiseFatal .invalidOpcode s.pc)) := by
  cases h : s.params.invalidPolicy
  · exact .inl ⟨rfl, by simp only [execInvalid, h]⟩
  · exact .inr ⟨rfl, by simp only [execInvalid, h]⟩

/-- Everything a step that answers a next state can have done. -/
theorem step_cases {s t : State} (h : step s = .next t) :
    s.status = .running ∧
    ((¬ InBounds s.pc 4 ∧ t = s.raiseFatal .fetchOutOfBounds s.pc) ∨
     (InBounds s.pc 4 ∧ ¬ Aligned s.pc ∧ s.params.misalignedFetch = .fault ∧
       t = s.raiseFatal .misalignedFetch s.pc) ∨
     (s.Fetchable ∧ ∃ i, decodeWord s.params (s.mem.wordAt s.pc.toNat) = .ok i ∧
       i.cls = classify s.params (s.mem.wordAt s.pc.toNat) ∧ Effect i (s.account i) t) ∨
     (s.Fetchable ∧ classify s.params (s.mem.wordAt s.pc.toNat) = .invalid ∧
       decodeWord s.params (s.mem.wordAt s.pc.toNat) =
         .error (.invalidOpcode (opField (s.mem.wordAt s.pc.toNat))) ∧
       ((s.params.invalidPolicy = .spin ∧ t = s.retire) ∨
        (s.params.invalidPolicy = .fault ∧ t = s.retire.raiseFatal .invalidOpcode s.pc)))) := by
  have hr : s.status = .running := by
    unfold step at h
    split at h
    · assumption
    · cases h
    · cases h
  refine ⟨hr, ?_⟩
  rcases fetch_cases s with hb | ⟨hb, ha, hm, hf⟩ | hf
  · rw [step_outOfBounds hr hb] at h; cases h; exact .inl ⟨hb, rfl⟩
  · rw [step_misaligned hr hb hf] at h; cases h; exact .inr (.inl ⟨hb, ha, hm, rfl⟩)
  · rcases decodeWord_cases s.params (s.mem.wordAt s.pc.toNat) with ⟨_, hd, hc⟩ | ⟨m, _, _, hd, hc⟩ | ⟨_, _, hd, hc⟩
    · rw [step_instr hr hf hd] at h
      exact .inr (.inr (.inl ⟨hf, _, hd, hc.symm, effect_of_exec h⟩))
    · rw [step_instr hr hf hd] at h
      refine .inr (.inr (.inl ⟨hf, _, hd, ?_, effect_of_exec h⟩))
      simp [Instr.cls, hc]
    · rw [step_invalid hr hf hd] at h
      refine .inr (.inr (.inr ⟨hf, hc, hd, ?_⟩))
      rcases execInvalid_cases s.accountInvalid with ⟨hp, he⟩ | ⟨hp, he⟩
      · rw [he] at h; cases h; exact .inl ⟨hp, rfl⟩
      · rw [he] at h; cases h; exact .inr ⟨hp, rfl⟩

/-- Every RUNNING state has a step (R31). -/
theorem step_of_running {s : State} (hr : s.status = .running) : ∃ t, step s = .next t := by
  rcases fetch_cases s with hb | ⟨hb, _, _, hf⟩ | hf
  · exact ⟨_, step_outOfBounds hr hb⟩
  · exact ⟨_, step_misaligned hr hb hf⟩
  · cases hd : decodeWord s.params (s.mem.wordAt s.pc.toNat) with
    | ok i =>
      obtain ⟨t, ht, _⟩ := exec_effect i (s.account i)
      exact ⟨t, by rw [step_instr hr hf hd, ht]⟩
    | error r =>
      rw [step_invalid hr hf hd]
      rcases execInvalid_cases s.accountInvalid with ⟨_, he⟩ | ⟨_, he⟩ <;> exact ⟨_, he⟩

/-! ### Runs -/

theorem coreRun_succ_of_step (M : Host.Core) {k : Nat} {s u : M.State} (h : M.step s = .next u) :
    M.run (k + 1) s = M.run k u := by rw [Host.Core.run, h]

theorem coreRun_succ_next (M : Host.Core) {k : Nat} {s t : M.State} (h : M.run (k + 1) s = .next t) :
    ∃ u, M.step s = .next u ∧ M.run k u = .next t := by
  rw [Host.Core.run] at h
  cases hs : M.step s with
  | next u => rw [hs] at h; exact ⟨u, rfl, h⟩
  | fault r => rw [hs] at h; cases h
  | refused r => rw [hs] at h; cases h

/-- A run of one more step is the step and then the run. -/
theorem run_succ_of_step {k : Nat} {s u : State} (h : step s = .next u) :
    Sys2Proof.core.run (k + 1) s = Sys2Proof.core.run k u := coreRun_succ_of_step Sys2Proof.core h

/-- A run of one more step that answers a next state starts with a step that does. -/
theorem run_succ_next {k : Nat} {s t : State} (h : Sys2Proof.core.run (k + 1) s = .next t) :
    ∃ u, step s = .next u ∧ Sys2Proof.core.run k u = .next t := coreRun_succ_next Sys2Proof.core h

/-! ### Accounting (R103, R104) -/

theorem account_retired (s : State) {i : Instr} {m : Mnemonic} (h : i.mnemonic? = some m) :
    s.account i = (s.addCycles (costOf s.params.cfg (bucketOf m))).retire := by
  simp only [State.account, h]

theorem account_halt (s : State) : s.account .halt = if s.params.countHalt then s.retire else s := rfl

/-- Accounting keeps the counters within CNT_WIDTH bits (R33). -/
theorem account_counters {s : State} (i : Instr) (hc : s.cycles < 2 ^ s.params.cntWidth)
    (hn : s.instret < 2 ^ s.params.cntWidth) :
    (s.account i).cycles < 2 ^ s.params.cntWidth ∧ (s.account i).instret < 2 ^ s.params.cntWidth := by
  have hp : 0 < 2 ^ s.params.cntWidth := Nat.two_pow_pos _
  unfold State.account
  split
  · exact ⟨Nat.mod_lt _ hp, Nat.mod_lt _ hp⟩
  · split
    · exact ⟨hc, Nat.mod_lt _ hp⟩
    · exact ⟨hc, hn⟩

end Sys2Proof.Machine
end

