-- ==== Sys2Proof/Laws/Host.lean ====
section
/-! SUPPORT. Everything the host can do, said once (spec/10_state.md R44, spec/45_halt_invalid.md R203). -/

namespace Sys2Proof.Machine

theorem hostMayAct_iff {t : Session} : t.hostMayAct = true ↔ t.stepped = false ∨ t.block.status ≠ .running := by
  simp [Session.hostMayAct]

/-- A block that is RUNNING after its first step takes no reset, load or supply. -/
theorem hostMayAct_stepped {t : Session} (hs : t.stepped = true) (hr : t.block.status = .running) :
    t.hostMayAct = false := by simp [Session.hostMayAct, hs, hr]

/-! ### The actions where they are allowed -/

theorem perform_reset {t : Session} (h : t.hostMayAct = true) :
    t.perform .reset = some ⟨t.block.hostReset, false⟩ := if_pos h

theorem perform_load {t : Session} (h : t.hostMayAct = true) {image : List Host.Cell}
    (hi : ∀ c ∈ image, c.1 < memSize) :
    t.perform (.load image) = some { t with block := t.block.setMem (t.block.mem.loadImage image) } := if_pos ⟨h, hi⟩

theorem perform_supply {t : Session} (h : t.hostMayAct = true) {cfg : PerfConfig} (hc : cfg.legal) :
    t.perform (.supply cfg) =
      some { t with block := { t.block with params := { t.block.params with cfg := cfg } } } := if_pos ⟨h, hc⟩

theorem perform_step {t : Session} {s : State} (h : step t.block = .next s) :
    t.perform .step = some ⟨s, true⟩ := by simp only [Session.perform, h]

/-- Everything the host can do to the block. -/
theorem perform_cases {t u : Session} {a : HostAction} (h : t.perform a = some u) :
    (a = .reset ∧ t.hostMayAct = true ∧ u = ⟨t.block.hostReset, false⟩) ∨
    (∃ image, a = .load image ∧ t.hostMayAct = true ∧ (∀ c ∈ image, c.1 < memSize) ∧
      u = { t with block := t.block.setMem (t.block.mem.loadImage image) }) ∨
    (∃ cfg, a = .supply cfg ∧ t.hostMayAct = true ∧ cfg.legal ∧
      u = { t with block := { t.block with params := { t.block.params with cfg := cfg } } }) ∨
    (∃ s, a = .step ∧ step t.block = .next s ∧ u = ⟨s, true⟩) := by
  cases a with
  | reset =>
    simp only [Session.perform] at h
    split at h <;> cases h
    exact .inl ⟨rfl, ‹_›, rfl⟩
  | load image =>
    simp only [Session.perform] at h
    split at h <;> cases h
    rename_i hp
    exact .inr (.inl ⟨image, rfl, hp.1, hp.2, rfl⟩)
  | supply cfg =>
    simp only [Session.perform] at h
    split at h <;> cases h
    rename_i hp
    exact .inr (.inr (.inl ⟨cfg, rfl, hp.1, hp.2, rfl⟩))
  | step =>
    simp only [Session.perform] at h
    split at h <;> cases h
    exact .inr (.inr (.inr ⟨_, rfl, ‹_›, rfl⟩))

/-! ### The end of the hang of R203 -/

theorem endHang_eq_some {t u : Session} :
    t.endHang = some u ↔ t.block.Spins ∧ u = ⟨t.block.hostReset, false⟩ := by
  unfold Session.endHang
  by_cases h : t.block.Spins
  · rw [if_pos h, Option.some_inj, eq_comm]
    exact (and_iff_right h).symm
  · rw [if_neg h]
    exact ⟨nofun, fun hu => absurd hu.1 h⟩

end Sys2Proof.Machine
end

