-- ==== Sys2Proof/Laws/PerInstr.lean ====
section
/-! SUPPORT. Per-instruction families: a statement about the instruction as syntax, and one lemma per constructor. -/

namespace Sys2Proof.Laws

/-- The word an instruction encodes to carries the opcode `OPC` gives its mnemonic; HALT encodes to the all-ones word
(R83, R86). -/
def EncodesOpcode.Statement (i : Instr) : Prop :=
  ∀ (p : Params) (w : Word), encode p i = some w →
    match i.mnemonic? with
    | some m => opField w = p.opc.of m
    | none   => w = haltWord

theorem EncodesOpcode.add (rd rs1 rs2 : RegIdx) : EncodesOpcode.Statement (.add rd rs1 rs2) :=
  fun _ _ h => encodeR_op h
theorem EncodesOpcode.sub (rd rs1 rs2 : RegIdx) : EncodesOpcode.Statement (.sub rd rs1 rs2) :=
  fun _ _ h => encodeR_op h
theorem EncodesOpcode.xor (rd rs1 rs2 : RegIdx) : EncodesOpcode.Statement (.xor rd rs1 rs2) :=
  fun _ _ h => encodeR_op h
theorem EncodesOpcode.and (rd rs1 rs2 : RegIdx) : EncodesOpcode.Statement (.and rd rs1 rs2) :=
  fun _ _ h => encodeR_op h
theorem EncodesOpcode.srl (rd rs1 rs2 : RegIdx) : EncodesOpcode.Statement (.srl rd rs1 rs2) :=
  fun _ _ h => encodeR_op h
theorem EncodesOpcode.sra (rd rs1 rs2 : RegIdx) : EncodesOpcode.Statement (.sra rd rs1 rs2) :=
  fun _ _ h => encodeR_op h
theorem EncodesOpcode.addi (rd rs1 : RegIdx) (imm : Nat) : EncodesOpcode.Statement (.addi rd rs1 imm) :=
  fun _ _ h => encodeI_op h
theorem EncodesOpcode.subi (rd rs1 : RegIdx) (imm : Nat) : EncodesOpcode.Statement (.subi rd rs1 imm) :=
  fun _ _ h => encodeI_op h
theorem EncodesOpcode.xori (rd rs1 : RegIdx) (imm : Nat) : EncodesOpcode.Statement (.xori rd rs1 imm) :=
  fun _ _ h => encodeI_op h
theorem EncodesOpcode.slti (rd rs1 : RegIdx) (imm : Nat) : EncodesOpcode.Statement (.slti rd rs1 imm) :=
  fun _ _ h => encodeI_op h
theorem EncodesOpcode.srai (rd rs1 : RegIdx) (imm : Nat) : EncodesOpcode.Statement (.srai rd rs1 imm) :=
  fun _ _ h => encodeI_op h
theorem EncodesOpcode.jalr (rd rs1 : RegIdx) (imm : Nat) : EncodesOpcode.Statement (.jalr rd rs1 imm) :=
  fun _ _ h => encodeI_op h
theorem EncodesOpcode.beq (rs1 rs2 : RegIdx) (imm : Nat) : EncodesOpcode.Statement (.beq rs1 rs2 imm) :=
  fun _ _ h => encodeSB_op h
theorem EncodesOpcode.bge (rs1 rs2 : RegIdx) (imm : Nat) : EncodesOpcode.Statement (.bge rs1 rs2 imm) :=
  fun _ _ h => encodeSB_op h
theorem EncodesOpcode.blt (rs1 rs2 : RegIdx) (imm : Nat) : EncodesOpcode.Statement (.blt rs1 rs2 imm) :=
  fun _ _ h => encodeSB_op h
theorem EncodesOpcode.jal (rd : RegIdx) (imm : Nat) : EncodesOpcode.Statement (.jal rd imm) :=
  fun _ _ h => encodeJ_op h
theorem EncodesOpcode.lw (rd rs1 : RegIdx) (imm : Nat) : EncodesOpcode.Statement (.lw rd rs1 imm) :=
  fun _ _ h => encodeI_op h
theorem EncodesOpcode.lb (rd rs1 : RegIdx) (imm : Nat) : EncodesOpcode.Statement (.lb rd rs1 imm) :=
  fun _ _ h => encodeI_op h
theorem EncodesOpcode.sw (rs1 rs2 : RegIdx) (imm : Nat) : EncodesOpcode.Statement (.sw rs1 rs2 imm) :=
  fun _ _ h => encodeSB_op h
theorem EncodesOpcode.sb (rs1 rs2 : RegIdx) (imm : Nat) : EncodesOpcode.Statement (.sb rs1 rs2 imm) :=
  fun _ _ h => encodeSB_op h
theorem EncodesOpcode.halt : EncodesOpcode.Statement .halt :=
  fun _ _ h => (Option.some.inj h).symm

end Sys2Proof.Laws
end

