-- ==== Sys2Proof/Tests/Slice0.lean ====
section
/-! SUPPORT. Tests on small states, with results from spec/95_test_vectors.md, and a witness for the hypotheses of each
statement that has any. -/

namespace Sys2Proof.Tests

open Sys2Proof.Machine

/-! ### Helpers -/

/-- The next state of a result, if it is one. -/
def nextOf : Result → Option State
  | .next s    => some s
  | .fault _   => none
  | .refused _ => none

/-- A state at `pc` with the given registers, the rest as after reset. -/
def atPc (pc : Word) (regs : List (RegIdx × Word)) : State :=
  regs.foldl (fun s r => s.setReg r.1 r.2) { State.reset with pc := pc }

/-- The same, with the word placed where the step fetches. -/
def start (pc : Word) (regs : List (RegIdx × Word)) (word : Nat) : State := (atPc pc regs).withFetchWord 32 word

/-- A state under other parameters. -/
def under (f : Params → Params) (s : State) : State := { s with params := f s.params }

/-- A step's next state meets a check. -/
def steps (s : State) (check : State → Bool) : Bool := (nextOf (step s)).any check

theorem exists_next {o : Result} {check : State → Bool} (h : (nextOf o).any check = true) :
    ∃ t, o = .next t ∧ check t = true := by
  cases o with
  | next t => exact ⟨t, rfl, h⟩
  | fault r => cases h
  | refused r => cases h

/-! ### WellFormed: one ill-formed term per check (R75 to R77, R86) -/

theorem test_illFormed_addi : (Instr.addi 1 0 4096).wellFormed = false := by decide
theorem test_illFormed_subi : (Instr.subi 1 0 4096).wellFormed = false := by decide
theorem test_illFormed_xori : (Instr.xori 1 0 4096).wellFormed = false := by decide
theorem test_illFormed_slti : (Instr.slti 1 0 4096).wellFormed = false := by decide
theorem test_illFormed_srai : (Instr.srai 1 0 4096).wellFormed = false := by decide
theorem test_illFormed_jalr : (Instr.jalr 1 0 4096).wellFormed = false := by decide
theorem test_illFormed_beq : (Instr.beq 1 0 4096).wellFormed = false := by decide
theorem test_illFormed_bge : (Instr.bge 1 0 4096).wellFormed = false := by decide
theorem test_illFormed_blt : (Instr.blt 1 0 4096).wellFormed = false := by decide
theorem test_illFormed_jal : (Instr.jal 1 1048576).wellFormed = false := by decide
theorem test_illFormed_lw : (Instr.lw 1 0 4096).wellFormed = false := by decide
theorem test_illFormed_lb : (Instr.lb 1 0 4096).wellFormed = false := by decide
theorem test_illFormed_sw : (Instr.sw 1 0 4096).wellFormed = false := by decide
theorem test_illFormed_sb : (Instr.sb 1 0 4096).wellFormed = false := by decide
theorem test_encoder_refuses_register_32 : encodeR 1 32 0 0 = none := by decide

/-! ### Decoding: a word written out field by field from R74 to R78 and R84, per constructor -/

/-- R layout: `-` (7), rs2, rs1, `-` (3), rd, opcode. -/
theorem test_decode_registerRegister :
    decodeWord paramsRef 0b00000000001000001000000110000001 = .ok (.add 3 1 2) ∧
    decodeWord paramsRef 0b00000000001000001000000110000010 = .ok (.sub 3 1 2) ∧
    decodeWord paramsRef 0b00000000001000001000000110000011 = .ok (.xor 3 1 2) ∧
    decodeWord paramsRef 0b00000000001000001000000110000100 = .ok (.and 3 1 2) ∧
    decodeWord paramsRef 0b11111110001000001111000110000101 = .ok (.srl 3 1 2) ∧
    decodeWord paramsRef 0b00000000001000001000000110000110 = .ok (.sra 3 1 2) := by decide

/-- I layout: imm (12), rs1, `-` (3), rd, opcode. -/
theorem test_decode_immediate :
    decodeWord paramsRef 0b00000000010100000000000010000111 = .ok (.addi 1 0 5) ∧
    decodeWord paramsRef 0b00000001000000001000001000001000 = .ok (.subi 4 1 16) ∧
    decodeWord paramsRef 0b11111111111100001000001010001001 = .ok (.xori 5 1 4095) ∧
    decodeWord paramsRef 0b00000000100000111000001100001010 = .ok (.slti 6 7 8) ∧
    decodeWord paramsRef 0b01000001111100001111001110001011 = .ok (.srai 7 1 1055) ∧
    decodeWord paramsRef 0b00000000100000010000000010001100 = .ok (.jalr 1 2 8) := by decide

/-- S/B layout: imm[11:5], rs2, rs1, `-` (3), imm[4:0], opcode; J layout: imm (20), rd, opcode. -/
theorem test_decode_control :
    decodeWord paramsRef 0b00000000001000001000001000001101 = .ok (.beq 1 2 4) ∧
    decodeWord paramsRef 0b11111110001000001000111110001110 = .ok (.bge 1 2 4095) ∧
    decodeWord paramsRef 0b00000010001000001000001000001111 = .ok (.blt 1 2 36) ∧
    decodeWord paramsRef 0b10000000000000000001000010010000 = .ok (.jal 1 524289) := by decide

theorem test_decode_loadStore :
    decodeWord paramsRef 0b00000001000000010000001010010001 = .ok (.lw 5 2 16) ∧
    decodeWord paramsRef 0b00000001000000010000001010010010 = .ok (.lb 5 2 16) ∧
    decodeWord paramsRef 0b00000000001100010000100000010011 = .ok (.sw 2 3 16) ∧
    decodeWord paramsRef 0b00000000001100010000100110010100 = .ok (.sb 2 3 19) := by decide

/-- Vectors E5 to E8: HALT, the opcode 0x7F by `HALT_MATCH`, and two INVALID words. -/
theorem test_decode_haltAndInvalid :
    decodeWord paramsRef 0xFFFFFFFF = .ok .halt ∧
    decodeWord paramsRef 0x0000007F = .error (.invalidOpcode 0x7F) ∧
    decodeWord { paramsRef with haltMatch := .opcodeOnly } 0x0000007F = .ok .halt ∧
    decodeWord paramsRef 0x00000000 = .error (.invalidOpcode 0) ∧
    decodeWord paramsRef 0x00000015 = .error (.invalidOpcode 0x15) := by decide

/-- Bytes lie big-endian (R57), and fewer than four are rejected by name. -/
theorem test_decodeBytes :
    decodeBytes paramsRef [0x00, 0x50, 0x00, 0x87, 0xAA] = .ok (.addi 1 0 5, [0xAA]) ∧
    decodeBytes paramsRef [0x00, 0x50, 0x00] = .error (.truncated 3) := by decide

theorem test_decodeTableWord :
    decodeTableWord 32 0x00310994 = some (.sb 2 3 19) ∧ decodeTableWord 32 0 = none := by decide

/-- W8: the words of the spec's listings come out of the encoder. -/
theorem test_encode :
    encode paramsRef (.sw 2 3 16) = some 0x00310813 ∧ encode paramsRef (.beq 1 2 0xFFF) = some 0xFE208F8D ∧
    encode paramsRef (.jal 0 0xFFFFF) = some 0xFFFFF010 ∧ encode paramsRef .halt = some 0xFFFFFFFF := by decide

/-! ### Register-register (vectors A1 to A17) -/

theorem test_add_wraps : steps (start 0x100 [(1, 0x7FFFFFFF), (2, 1)] 0x00208181)
    (fun t => t.reg 3 == 0x80000000 && t.pc == 0x104 && t.cycles == 1 && t.instret == 1) = true := by decide
theorem test_add_writes_x0 : steps (start 0x100 [(1, 5), (2, 3)] 0x00208001) (fun t => t.reg 0 == 8) = true := by decide
theorem test_sub_borrows : steps (start 0x100 [(2, 1)] 0x00208182) (fun t => t.reg 3 == 0xFFFFFFFF) = true := by decide
theorem test_xor_inverts : steps (start 0x100 [(1, 0x12345678), (2, 0xFFFFFFFF)] 0x00208183)
    (fun t => t.reg 3 == 0xEDCBA987) = true := by decide
theorem test_and_masks : steps (start 0x100 [(1, 0xF0F0F0F0), (2, 0x0FF00FF0)] 0x00208184)
    (fun t => t.reg 3 == 0x00F000F0) = true := by decide
theorem test_srl_low5 : steps (start 0x100 [(1, 0x80000000), (2, 0xFFFFFFFF)] 0x00208185)
    (fun t => t.reg 3 == 1) = true := by decide
theorem test_srl_saturate :
    steps (under ({ · with shamtMode := .saturate }) (start 0x100 [(1, 0x80000000), (2, 32)] 0x00208185))
      (fun t => t.reg 3 == 0) = true := by decide
theorem test_sra_low5 : steps (start 0x100 [(1, 0x80000000), (2, 33)] 0x00208186)
    (fun t => t.reg 3 == 0xC0000000) = true := by decide
theorem test_sra_saturate :
    steps (under ({ · with shamtMode := .saturate }) (start 0x100 [(1, 0x80000000), (2, 33)] 0x00208186))
      (fun t => t.reg 3 == 0xFFFFFFFF) = true := by decide

/-! ### Immediate (vectors I1 to I17) -/

theorem test_addi_unsigned : steps (start 0x100 [] 0xFFF00087) (fun t => t.reg 1 == 0xFFF && t.cycles == 2) = true := by
  decide
theorem test_subi_unsigned : steps (start 0x100 [] 0xFFF00088) (fun t => t.reg 1 == 0xFFFFF001) = true := by decide
theorem test_xori_low12 : steps (start 0x100 [(1, 0xFFFFFFFF)] 0xFFF08089)
    (fun t => t.reg 1 == 0xFFFFF000) = true := by decide
theorem test_slti_index : steps (start 0x100 [(5, 100)] 0x0062830A) (fun t => t.reg 6 == 1) = true := by decide
theorem test_slti_equal : steps (start 0x100 [] 0x01FF830A) (fun t => t.reg 6 == 0) = true := by decide
theorem test_srai_low5 : steps (start 0x100 [(1, 0x80000000)] 0x0200838B)
    (fun t => t.reg 7 == 0x80000000) = true := by decide
theorem test_srai_saturate :
    steps (under ({ · with shamtMode := .saturate }) (start 0x100 [(1, 0x80000000)] 0x0200838B))
      (fun t => t.reg 7 == 0xFFFFFFFF) = true := by decide

/-! ### Control transfer (vectors K1 to K5, B1 to B12, J1 to J5) -/

theorem test_jalr_writeFirst : steps (start 0x20 [(2, 0x100)] 0x0081010C)
    (fun t => t.reg 2 == 0x24 && t.pc == 0x2C) = true := by decide
theorem test_jalr_readFirst :
    steps (under ({ · with jalrOrder := .readFirst }) (start 0x20 [(2, 0x100)] 0x0081010C))
      (fun t => t.reg 2 == 0x24 && t.pc == 0x108) = true := by decide
theorem test_beq_taken : steps (start 0x10 [] 0xFE208F8D) (fun t => t.pc == 0x200E && t.cycles == 4) = true := by decide
theorem test_beq_untaken : steps (start 0x10 [(1, 7), (2, 8)] 0x0020820D) (fun t => t.pc == 0x14) = true := by decide
theorem test_bge_signed : steps (start 0x10 [(2, 0xFFFFFFFF)] 0x0020820E) (fun t => t.pc == 0x18) = true := by decide
theorem test_bge_equal : steps (start 0x10 [(1, 5), (2, 5)] 0x0020820E) (fun t => t.pc == 0x18) = true := by decide
theorem test_blt_signed : steps (start 0x10 [(1, 0x80000000), (2, 0x7FFFFFFF)] 0x0020820F)
    (fun t => t.pc == 0x18) = true := by decide
theorem test_blt_untaken : steps (start 0x10 [(1, 0x7FFFFFFF), (2, 0x80000000)] 0x0020820F)
    (fun t => t.pc == 0x14) = true := by decide
theorem test_jal_links : steps (start 0x10 [] 0xFFFFF010)
    (fun t => t.reg 0 == 0x14 && t.pc == 0x20000E && t.status == .running && t.cycles == 5) = true := by decide

/-! ### Loads and stores (vectors M1 to M11, S1 to S7) -/

theorem test_lw_bigEndian :
    steps ((start 0 [(2, 0x100)] 0x00110291).setMem
        ((start 0 [] 0x00110291).mem.loadImage [(0x101, 0x22), (0x102, 0x33), (0x103, 0x44), (0x104, 0x55)]))
      (fun t => t.reg 5 == 0x22334455) = true := by decide
theorem test_lw_outOfBounds : steps (start 0 [(2, 0xFFFFC)] 0x00110291)
    (fun t => t.status == .faulted ⟨.loadOutOfBounds, 0xFFFFD, 0⟩ && t.pc == 0 && t.cycles == 2 && t.instret == 1) =
      true := by decide
theorem test_lb_zero :
    steps ((start 0 [(2, 0x100)] 0x01010292).setMem ((start 0 [] 0x01010292).mem.loadImage [(0x110, 0x80)]))
      (fun t => t.reg 5 == 0x80) = true := by decide
theorem test_lb_sign :
    steps (under ({ · with lbExt := .sign })
        ((start 0 [(2, 0x100)] 0x01010292).setMem ((start 0 [] 0x01010292).mem.loadImage [(0x110, 0x80)])))
      (fun t => t.reg 5 == 0xFFFFFF80) = true := by decide
theorem test_sw_bigEndian : steps (start 0 [(2, 0x100), (3, 0x11223344)] 0x00310813)
    (fun t => t.mem.byteAt 0x110 == 0x11 && t.mem.byteAt 0x113 == 0x44 && t.pc == 4 && t.cycles == 3) = true := by decide
theorem test_sw_outOfBounds : steps (start 0 [(2, 0xFFFFD), (3, 0x11223344)] 0x00310013)
    (fun t => t.status == .faulted ⟨.storeOutOfBounds, 0xFFFFD, 0⟩ && t.mem.byteAt 0xFFFFD == 0) = true := by decide
theorem test_sb_low : steps (start 0 [(2, 0xFFFFF), (3, 0x1FF)] 0x00310014)
    (fun t => t.mem.byteAt 0xFFFFF == 0xFF) = true := by decide
theorem test_sb_outOfBounds : steps (start 0 [(2, 0xFFFFF), (3, 0x1FF)] 0x00310094)
    (fun t => t.status == .faulted ⟨.storeOutOfBounds, 0x100000, 0⟩) = true := by decide

/-! ### HALT, INVALID, fetch and counters (vectors H1, V1, V2, F1 to F4, T4) -/

theorem test_halt : steps (start 0xC [] 0xFFFFFFFF)
    (fun t => t.status == .halted && t.pc == 0xC && t.cycles == 0 && t.instret == 0) = true := by decide
theorem test_halt_counted : steps (under ({ · with countHalt := true }) (start 0xC [] 0xFFFFFFFF))
    (fun t => t.instret == 1) = true := by decide
theorem test_invalid_spin : steps (start 0x40 [] 0)
    (fun t => t.status == .running && t.pc == 0x40 && t.cycles == 0 && t.instret == 1) = true := by decide
theorem test_invalid_fault : steps (under ({ · with invalidPolicy := .fault }) (start 0x40 [] 0))
    (fun t => t.status == .faulted ⟨.invalidOpcode, 0x40, 0x40⟩ && t.instret == 1) = true := by decide
theorem test_fetch_outOfBounds : steps (atPc 0xFFFFE [])
    (fun t => t.status == .faulted ⟨.fetchOutOfBounds, 0xFFFFE, 0xFFFFE⟩ && t.instret == 0) = true := by decide
theorem test_fetch_misaligned : steps (atPc 0x102 [])
    (fun t => t.status == .faulted ⟨.misalignedFetch, 0x102, 0x102⟩ && t.instret == 0) = true := by decide
theorem test_fetch_misaligned_fetches :
    steps ((under ({ · with misalignedFetch := .fetch }) (atPc 0x102 [])).withFetchWord 32 0x00500087)
      (fun t => t.reg 1 == 5 && t.pc == 0x106) = true := by decide
theorem test_cycles_wrap :
    steps { under ({ · with cntWidth := 8 }) (start 0x100 [] 0x00208181) with cycles := 0xFF }
      (fun t => t.cycles == 0) = true := by decide
theorem test_no_step_after_halt : nextOf (step (atPc 0 []).halt) = none := by decide
/-- T6: cycles = 3 at 3 MHz is 1/10^6 s exactly. -/
theorem test_executionTime :
    ({ State.reset with cycles := 3, params := { paramsRef with cfg := { cfgRef with freqMhz := 3 } } } :
      State).executionTime = some (1 / 1000000) := by
  simp only [State.executionTime]
  rw [if_pos (by decide)]
  norm_num

/-! ### Memory keeps its canonical form -/

theorem test_zero_write_unlists : (Memory.zero.setByte 5 7).setByte 5 0 = Memory.zero := by decide
theorem test_writes_commute :
    (Memory.zero.setByte 9 1).setByte 5 2 = (Memory.zero.setByte 5 2).setByte 9 1 := by decide

/-! ### Witnesses: a concrete input that meets the hypotheses of each statement, clause by clause -/

theorem witness_DecodesAs : paramsRef.legal ∧
    ∀ m ∈ Mnemonic.all, ((paramsRef.opc.of m).setWidth 32 : Word).extractLsb' 0 7 = paramsRef.opc.of m := by decide

theorem witness_EncodeThenDecodeGivesTheInstruction :
    paramsRef.legal ∧ (Instr.jal 31 0xFFFFF).wellFormed = true ∧ (Instr.sb 31 31 0xFFF).wellFormed = true := by decide

theorem witness_DecodeThenEncodeGivesTheWordIffUnusedBitsAreZero :
    decodeWord paramsRef 0xFFFFFF85 = .ok (.srl 31 31 31) ∧ Instr.srl 31 31 31 ≠ .halt ∧
    (0xFFFFFF85 : Word) &&& ignoredMask .r ≠ 0 ∧
    decodeWord paramsRef 0x01FF8F85 = .ok (.srl 31 31 31) ∧ (0x01FF8F85 : Word) &&& ignoredMask .r = 0 := by decide

theorem witness_UnusedBitsDoNotChangeDecoding :
    paramsRef.legal ∧ classify paramsRef 0xFFFFFF85 ≠ .halt ∧ classify paramsRef 0xFFFFFF85 ≠ .invalid ∧
    (0xFFFFFF85 : Word) &&& ~~~(ignoredMask (classify paramsRef 0xFFFFFF85)) =
      0x01FF8F85 &&& ~~~(ignoredMask (classify paramsRef 0xFFFFFF85)) := by decide

theorem witness_DecodedInstructionFitsTheClassOfItsWord :
    decodeWord paramsRef 0xFFFFF010 = .ok (.jal 0 0xFFFFF) := by decide

/-- Each clause: HALT by the word and by the opcode, an assigned opcode at both ends of the table, and the unassigned
opcodes next to them. -/
theorem witness_WordIsClassifiedByHaltTestThenOpcode :
    paramsRef.legal ∧ { paramsRef with haltMatch := .opcodeOnly }.legal ∧
    (0x0000007F : Word).extractLsb' 0 7 = 0b1111111 ∧
    paramsRef.opc.of .add = (0x00000001 : Word).extractLsb' 0 7 ∧
    paramsRef.opc.of .sb = (0x00000014 : Word).extractLsb' 0 7 ∧
    (∀ m ∈ Mnemonic.all, paramsRef.opc.of m ≠ (0x00000000 : Word).extractLsb' 0 7) ∧
    (∀ m ∈ Mnemonic.all, paramsRef.opc.of m ≠ (0x00000015 : Word).extractLsb' 0 7) ∧
    (∀ m ∈ Mnemonic.all, paramsRef.opc.of m ≠ (0x0000007F : Word).extractLsb' 0 7) := by decide

theorem witness_UnassignedReferenceOpcodesAreInvalid :
    (0 : Word) ≠ 0xFFFFFFFF ∧ (0 : Word).extractLsb' 0 7 = 0 ∧
    (0x15 : Word) ≠ 0xFFFFFFFF ∧ 0x15 ≤ ((0x15 : Word).extractLsb' 0 7).toNat ∧
    (0xFFFFFF7F : Word) ≠ 0xFFFFFFFF ∧ 0x15 ≤ ((0xFFFFFF7F : Word).extractLsb' 0 7).toNat := by decide

/-- The highest address an instruction can be fetched at. -/
theorem witness_StepRunsTheDecodedInstruction :
    let s := start 0xFFFFC [] 0x00208181
    s.status = .running ∧ s.Fetchable ∧
    decodeBytes s.params [s.mem.byteAt s.pc.toNat, s.mem.byteAt (s.pc.toNat + 1), s.mem.byteAt (s.pc.toNat + 2),
      s.mem.byteAt (s.pc.toNat + 3)] = .ok (.add 3 1 2, []) := by decide

theorem witness_InvalidWordSpinsOrFaults :
    let s := start 0x40 [] 0
    let f := under ({ · with invalidPolicy := .fault }) s
    s.status = .running ∧ s.Fetchable ∧ classify s.params (s.mem.wordAt s.pc.toNat) = .invalid ∧
    s.params.invalidPolicy = .spin ∧
    f.status = .running ∧ f.Fetchable ∧ classify f.params (f.mem.wordAt f.pc.toNat) = .invalid ∧
    f.params.invalidPolicy = .fault := by decide

/-- One instruction that completes, and one that takes a fatal error. -/
theorem witness_StepAddsTheBucketCostAndOneRetired :
    (∃ t, step (start 0 [(1, 7), (2, 8)] 0x0020820D) = .next t ∧ (t.pc == 4) = true) ∧
    decodeWord paramsRef ((start 0 [(1, 7), (2, 8)] 0x0020820D).mem.wordAt 0) = .ok (.beq 1 2 4) ∧
    (∃ t, step (start 0 [(2, 0xFFFFC)] 0x00110291) = .next t ∧ (t.status != .running) = true) ∧
    decodeWord paramsRef ((start 0 [(2, 0xFFFFC)] 0x00110291).mem.wordAt 0) = .ok (.lw 5 2 1) :=
  ⟨exists_next (by decide), by decide, exists_next (by decide), by decide⟩

theorem witness_HaltIsRetiredOnlyUnderCountHalt :
    let s := start 0xC [] 0xFFFFFFFF
    s.status = .running ∧ s.Fetchable ∧ decodeWord s.params (s.mem.wordAt s.pc.toNat) = .ok .halt := by decide

theorem witness_FetchOutOfBoundsIsFatalAndUncounted :
    (atPc 0xFFFFD []).status = .running ∧ ¬ (atPc 0xFFFFD []).pc.toNat + 4 ≤ 1048576 ∧
    (atPc 0xFFFFC []).pc.toNat + 4 ≤ 1048576 := by decide

/-- The highest misaligned address in bounds, under both values of the parameter. -/
theorem witness_MisalignedFetchFaultsOrFetches :
    let s := atPc 0xFFFFB []
    let f := under ({ · with misalignedFetch := .fetch }) s
    s.status = .running ∧ InBounds s.pc 4 ∧ s.pc.toNat % 4 ≠ 0 ∧ s.params.misalignedFetch = .fault ∧
    f.status = .running ∧ InBounds f.pc 4 ∧ f.pc.toNat % 4 ≠ 0 ∧ f.params.misalignedFetch = .fetch := by decide

theorem witness_StepExistsExactlyWhenRunning :
    (atPc 0 []).status = .running ∧ (atPc 0 []).halt.status = .halted ∧
    ((atPc 0 []).raiseFatal .loadOutOfBounds 0xFFFFF).status = .faulted ⟨.loadOutOfBounds, 0xFFFFF, 0⟩ := by decide

/-- A step for each of the five cases, and one that stays RUNNING. -/
theorem witness_TerminalStatusArisesInExactlyFiveCases :
    (∃ t, step (atPc 0xFFFFD []) = .next t ∧ (t.status != .running) = true) ∧
    (∃ t, step (atPc 2 []) = .next t ∧ (t.status != .running) = true) ∧
    (∃ t, step (start 0 [(2, 0xFFFFF)] 0x00310094) = .next t ∧ (t.status != .running) = true) ∧
    (∃ t, step (start 0 [] 0xFFFFFFFF) = .next t ∧ (t.status != .running) = true) ∧
    (∃ t, step (under ({ · with invalidPolicy := .fault }) (start 0 [] 0)) = .next t ∧
      (t.status != .running) = true) ∧
    (∃ t, step (start 0 [] 0x00208181) = .next t ∧ (t.status == .running) = true) :=
  ⟨exists_next (by decide), exists_next (by decide), exists_next (by decide), exists_next (by decide),
    exists_next (by decide), exists_next (by decide)⟩

/-- An ending step of each kind: HALT, a fetch fault of each kind, and each dispatch fault. -/
theorem witness_EndingStepsLeaveRegistersMemoryAndPc :
    (∃ t, step (start 0 [] 0xFFFFFFFF) = .next t ∧ (t.status == .halted) = true) ∧
    (∃ t, step (atPc 0xFFFFD []) = .next t ∧
      (t.status == .faulted ⟨.fetchOutOfBounds, 0xFFFFD, 0xFFFFD⟩) = true) ∧
    (∃ t, step (atPc 2 []) = .next t ∧ (t.status == .faulted ⟨.misalignedFetch, 2, 2⟩) = true) ∧
    (∃ t, step (start 0 [(2, 0xFFFFC)] 0x00110291) = .next t ∧
      (t.status == .faulted ⟨.loadOutOfBounds, 0xFFFFD, 0⟩) = true) ∧
    (∃ t, step (start 0 [(2, 0xFFFFF)] 0x00310094) = .next t ∧
      (t.status == .faulted ⟨.storeOutOfBounds, 0x100000, 0⟩) = true) ∧
    (∃ t, step (under ({ · with invalidPolicy := .fault }) (start 0 [] 0)) = .next t ∧
      (t.status == .faulted ⟨.invalidOpcode, 0, 0⟩) = true) :=
  ⟨exists_next (by decide), exists_next (by decide), exists_next (by decide), exists_next (by decide),
    exists_next (by decide), exists_next (by decide)⟩

theorem witness_EveryStepKeepsTheInvariant :
    (start 0 [(2, 0x100), (3, 0x11223344)] 0x00310813).Inv ∧
    ∃ t, step (start 0 [(2, 0x100), (3, 0x11223344)] 0x00310813) = .next t ∧ (t.pc == 4) = true :=
  ⟨⟨⟨by decide, by decide, by decide, by decide⟩, trivial⟩, exists_next (by decide)⟩

theorem witness_RunsNeverChangeTheParameters :
    ∃ t : State, Sys2Proof.core.run 2 (start 0 [] 0x00208181) = .next t ∧ (t.instret == 2) = true :=
  exists_next (o := Sys2Proof.core.run 2 (start 0 [] 0x00208181)) (by decide)

theorem witness_ResultsDoNotDependOnCfgOrCounters :
    EqualButCounters (start 0 [] 0x00208181)
      { under ({ · with cfg := { cfgRef with costR := 9 } }) (start 0 [] 0x00208181) with cycles := 5, instret := 6 } ∧
    ∃ t : State, Sys2Proof.core.run 2 (start 0 [] 0x00208181) = .next t ∧ (t.pc == 4) = true :=
  ⟨rfl, exists_next (o := Sys2Proof.core.run 2 (start 0 [] 0x00208181)) (by decide)⟩

theorem witness_InvalidWordUnderSpinHangsForEver :
    let s := { start 0x40 [] 0 with instret := 2 ^ 64 - 1 }
    s.status = .running ∧ s.Fetchable ∧ classify s.params (s.mem.wordAt s.pc.toNat) = .invalid ∧
    s.params.invalidPolicy = .spin ∧ s.instret < 2 ^ s.params.cntWidth := by decide

/-- Vector K4, a backward jump. -/
theorem witness_OnlyJalrMovesThePcBackwards :
    ∃ t, step (start 0x80 [(5, 0x40)] 0x0002800C) = .next t ∧
      decide (t.pc.toNat < (start 0x80 [(5, 0x40)] 0x0002800C).pc.toNat) = true := exists_next (by decide)

/-- Clause by clause: an instruction that writes x3 alone, slti in two states whose x5 differs, and a step that changes
x1. -/
theorem witness_InstructionsWriteAndReadOnlyTheirRegisters :
    (∃ t, exec (.add 3 1 2) (atPc 0 [(1, 5)]) = .next t ∧ (t.pc == 4) = true) ∧ (Instr.add 3 1 2).dest? ≠ some 4 ∧
    (atPc 0 [(5, 9)] = { atPc 0 [] with x := (atPc 0 [(5, 9)]).x } ∧
      (∀ r ∈ (Instr.slti 6 5 6).sources, (atPc 0 [(5, 9)]).reg r = (atPc 0 []).reg r) ∧
      ∃ t, exec (.slti 6 5 6) (atPc 0 []) = .next t ∧ (t.status == .running) = true) ∧
    (∃ t, step (start 0 [] 0x00500087) = .next t ∧ (t.reg 1 != (start 0 [] 0x00500087).reg 1) = true) :=
  ⟨exists_next (by decide), by decide, ⟨rfl, by decide, exists_next (by decide)⟩, exists_next (by decide)⟩

theorem witness_ResetZeroesEverythingAndRuns :
    (atPc 4 [(1, 5)]).hostReset = (atPc 4 [(1, 5)]).hostReset ∧ (0 : Nat) < 1048576 ∧ (1048575 : Nat) < 1048576 := by
  decide

theorem witness_WriteToX0IsReadBack :
    ∃ t, exec (.addi 0 1 5) (atPc 0 [(1, 0xFFFFFFFF)]) = .next t ∧ (t.reg 0 == 4) = true := exists_next (by decide)

/-- Both values of `SHAMT_MODE`, with the amounts 31 and 32. -/
theorem witness_SrlDividesTheUnsignedValue :
    (atPc 0 [(2, 31)]).params.shamtMode = .low5 ∧ (atPc 0 [(2, 31)]).reg 2 = 31 ∧
    (under ({ · with shamtMode := .saturate }) (atPc 0 [(2, 32)])).params.shamtMode = .saturate ∧
    (under ({ · with shamtMode := .saturate }) (atPc 0 [(2, 32)])).reg 2 = 32 := by decide

theorem witness_SraDividesTheSignedValue :
    (atPc 0 [(1, 0x80000000), (2, 31)]).params.shamtMode = .low5 ∧
    (under ({ · with shamtMode := .saturate }) (atPc 0 [(1, 0x80000000), (2, 32)])).params.shamtMode = .saturate := by
  decide

theorem witness_SltiComparesTheRegisterNumber :
    (31 : RegIdx).toNat < 32 ∧ 31 ≤ (31 : RegIdx).toNat ∧ 0 ≤ (0 : RegIdx).toNat := by decide

theorem witness_SraiDividesTheSignedValue :
    4095 < 4096 ∧ (atPc 0 [(1, 0x80000000)]).params.shamtMode = .low5 ∧
    (under ({ · with shamtMode := .saturate }) (atPc 0 [(1, 0x80000000)])).params.shamtMode = .saturate := by decide

/-- Each clause: different registers, equal registers under READ_FIRST, and equal ones under WRITE_FIRST. -/
theorem witness_JalrLinksAndJumpsThroughTheRegister :
    (1 : RegIdx) ≠ 2 ∧ (under ({ · with jalrOrder := .readFirst }) (atPc 0 [])).params.jalrOrder = .readFirst ∧
    ((2 : RegIdx) = 2 ∧ (atPc 0 []).params.jalrOrder = .writeFirst) := by decide

theorem witness_BeqBranchesWhenEqual :
    (atPc 0x10 [(1, 7), (2, 7)]).reg 1 = (atPc 0x10 [(1, 7), (2, 7)]).reg 2 ∧
    (atPc 0x10 [(1, 7), (2, 8)]).reg 1 ≠ (atPc 0x10 [(1, 7), (2, 8)]).reg 2 := by decide

theorem witness_BgeBranchesWhenGreaterOrEqualSigned :
    ((atPc 0 [(1, 5), (2, 5)]).reg 2).toInt ≤ ((atPc 0 [(1, 5), (2, 5)]).reg 1).toInt ∧
    ((atPc 0 [(1, 0xFFFFFFFF)]).reg 1).toInt < ((atPc 0 [(1, 0xFFFFFFFF)]).reg 2).toInt := by decide

theorem witness_BltBranchesWhenLessSigned :
    ((atPc 0 [(1, 0x80000000), (2, 0x7FFFFFFF)]).reg 1).toInt <
      ((atPc 0 [(1, 0x80000000), (2, 0x7FFFFFFF)]).reg 2).toInt ∧
    ((atPc 0 [(1, 3), (2, 3)]).reg 2).toInt ≤ ((atPc 0 [(1, 3), (2, 3)]).reg 1).toInt := by decide

/-- The highest word address, and one reached by a sum that wraps. -/
theorem witness_LwLoadsTheBigEndianWord :
    (((atPc 0 [(2, 0xFFFFC)]).reg 2).toNat + 0) % 2 ^ 32 + 4 ≤ 1048576 ∧
    (((atPc 0 [(2, 0xFFFFFFFC)]).reg 2).toNat + 8) % 2 ^ 32 + 4 ≤ 1048576 := by decide

/-- The highest byte address, under both values of `LB_EXT`. -/
theorem witness_LbLoadsTheWidenedByte :
    (((atPc 0 [(2, 0xFFFFF)]).reg 2).toNat + 0) % 2 ^ 32 + 1 ≤ 1048576 ∧ (atPc 0 []).params.lbExt = .zero ∧
    (under ({ · with lbExt := .sign }) (atPc 0 [])).params.lbExt = .sign := by decide

theorem witness_SwStoresTheFourBytes :
    (effectiveAddress (atPc 0 [(2, 0xFFFFC)]) 2 0).toNat + 4 ≤ 1048576 := by decide

theorem witness_SbStoresTheLowByte :
    (effectiveAddress (atPc 0 [(2, 0xFFFFF)]) 2 0).toNat + 1 ≤ 1048576 := by decide

/-- The lowest address each of the four forms stops at. -/
theorem witness_OutOfBoundsAccessIsFatal :
    accessOf (atPc 0 [(2, 0xFFFFC)]) (.lw 5 2 1) = some (0xFFFFD, 4) ∧
    (Instr.lw 5 2 1).accessFault? = some .loadOutOfBounds ∧ ¬ (0xFFFFD : Word).toNat + 4 ≤ 1048576 ∧
    accessOf (atPc 0 [(2, 0xFFFFF)]) (.lb 5 2 1) = some (0x100000, 1) ∧
    (Instr.lb 5 2 1).accessFault? = some .loadOutOfBounds ∧ ¬ (0x100000 : Word).toNat + 1 ≤ 1048576 ∧
    accessOf (atPc 0 [(2, 0xFFFFC)]) (.sw 2 3 1) = some (0xFFFFD, 4) ∧
    (Instr.sw 2 3 1).accessFault? = some .storeOutOfBounds ∧
    accessOf (atPc 0 [(2, 0xFFFFF)]) (.sb 2 3 1) = some (0x100000, 1) ∧
    (Instr.sb 2 3 1).accessFault? = some .storeOutOfBounds := by decide

theorem witness_SwThenLwReturnsTheStoredWord :
    InBounds (effectiveAddress (atPc 0 [(2, 0xFFFFC), (3, 0xDEADBEEF)]) 2 0) 4 ∧
    ∃ t, exec (.sw 2 3 0) (atPc 0 [(2, 0xFFFFC), (3, 0xDEADBEEF)]) = .next t ∧
      (effectiveAddress t 2 0 == effectiveAddress (atPc 0 [(2, 0xFFFFC), (3, 0xDEADBEEF)]) 2 0) = true :=
  ⟨by decide, exists_next (by decide)⟩

theorem witness_WordAccessIsBigEndianAndBounded :
    (0xFFFFC : Word).toNat + 4 ≤ 1048576 ∧ ¬ (0xFFFFD : Word).toNat + 4 ≤ 1048576 := by decide

theorem witness_ByteAccessIsBounded :
    (0xFFFFF : Word).toNat + 1 ≤ 1048576 ∧ ¬ (0x100000 : Word).toNat + 1 ≤ 1048576 := by decide

theorem witness_ByteLanesCountFromTheMostSignificantEnd :
    (Memory.zero.writeWord 0xFFFFC 0x11223344).isSome = true ∧ (3 : Nat) < 4 ∧
    Memory.zero.readWord 0xFFFFC = some 0 ∧ (Memory.zero.writeByte (0xFFFFC + BitVec.ofNat 32 3) 0xAB).isSome = true := by
  decide

/-- Program P5: a store over the next word; and a word and a byte over its last byte. -/
theorem witness_NextFetchSeesTheStoredBytes :
    ((atPc 8 [(1, 0xFFFFFFFF)]).status = .running ∧
    effectiveAddress (atPc 8 [(1, 0xFFFFFFFF)]) 0 0xC = (atPc 8 [(1, 0xFFFFFFFF)]).pc + 4 ∧
    InBounds ((atPc 8 [(1, 0xFFFFFFFF)]).pc + 4) 4 ∧
    ∃ t, exec (.sw 0 1 0xC) (atPc 8 [(1, 0xFFFFFFFF)]) = .next t ∧ decide t.Fetchable = true) ∧
    (InBounds (effectiveAddress (atPc 8 [(1, 0xFFFFFFFF)]) 0 0xF) 4 ∧
    ∃ t, exec (.sw 0 1 0xF) (atPc 8 [(1, 0xFFFFFFFF)]) = .next t ∧ decide t.Fetchable = true) ∧
    InBounds (effectiveAddress (atPc 8 [(1, 0xFFFFFFFF)]) 0 0xF) 1 ∧
    ∃ t, exec (.sb 0 1 0xF) (atPc 8 [(1, 0xFFFFFFFF)]) = .next t ∧ decide t.Fetchable = true :=
  ⟨⟨by decide, by decide, by decide, exists_next (by decide)⟩, ⟨by decide, exists_next (by decide)⟩, by decide,
    exists_next (by decide)⟩

theorem witness_HaltSetsHaltedAndNothingElse :
    { paramsRef with haltMatch := .opcodeOnly }.haltMatch = .opcodeOnly ∧
    (0x0000007F : Word).extractLsb' 0 7 = 0b1111111 := by decide

theorem witness_ExecutionTimeIsCyclesOverFrequency : 0 < State.reset.params.cfg.freqMhz := by decide

/-- W3: 15 cycles at 1 MHz and at 2 MHz. -/
theorem witness_DoublingTheFrequencyGivesSpeedupTwo :
    let s := { State.reset with cycles := 15 }
    let t := under ({ · with cfg := { cfgRef with freqMhz := 2 } }) s
    0 < s.cycles ∧ t.cycles = s.cycles ∧ 0 < s.params.cfg.freqMhz ∧
      t.params.cfg.freqMhz = 2 * s.params.cfg.freqMhz := by decide

/-- A running session after a step; and a load and a supply the host may do before the first step. -/
theorem witness_SteppedRunningBlockIsOnlyStepped :
    (⟨start 0 [] 0x00208181, true⟩ : Session).stepped = true ∧ (start 0 [] 0x00208181).status = .running ∧
    (⟨start 0 [] 0x00208181, true⟩ : Session).perform .step ≠ none ∧
    (Session.reset.perform (.load [(0xFFFFF, 0xAB)])).isSome = true ∧
    (Session.reset.perform (.supply cfgRef)).isSome = true := by decide

/-- Not yet stepped; halted; an image that gives the highest address twice; a hang after a step. -/
theorem witness_HostActionsHaveTheirEffectAlone :
    Session.reset.stepped = false ∧ (⟨(atPc 0 []).halt, true⟩ : Session).block.status ≠ .running ∧
    (∀ c ∈ ([(0xFFFFF, 1), (0xFFFFF, 2)] : List Host.Cell), c.1 < 1048576) ∧ 0 < cfgRef.freqMhz ∧
    Session.reset.block.status = .running ∧
    (⟨start 0x40 [] 0, true⟩ : Session).endHang = some ⟨(start 0x40 [] 0).hostReset, false⟩ := by decide

theorem witness_HostActionsKeepTheDataInvariant :
    (start 0 [] 0x00208181).DataInv ∧
    ((⟨start 0 [] 0x00208181, false⟩ : Session).perform .step).isSome = true ∧
    ((⟨start 0 [] 0x00208181, false⟩ : Session).perform (.load [(0xFFFFF, 0xAB)])).isSome = true ∧
    ((⟨start 0 [] 0x00208181, false⟩ : Session).perform .reset).isSome = true ∧
    (start 0x40 [] 0).DataInv ∧ (⟨start 0x40 [] 0, true⟩ : Session).endHang.isSome = true :=
  ⟨⟨by decide, by decide, by decide, by decide⟩, by decide, by decide, by decide,
    ⟨by decide, by decide, by decide, by decide⟩, by decide⟩

end Sys2Proof.Tests
end

section
/-! PROOFS. What an instruction writes and reads (spec/10_state.md R23, R25): the statements O24 and O26. -/

namespace Sys2Proof.Machine

/-! ### Writes -/

/-- An effect changes no register but the instruction's destination. -/
theorem Effect.reg_of_ne_dest {i : Instr} {s t : State} (h : Effect i s t) {r : RegIdx} (hr : i.dest? ≠ some r) :
    t.reg r = s.reg r := by
  cases h with
  | write rd v p hd =>
    have hne : r ≠ rd := fun e => hr (e ▸ hd)
    exact s.reg_setReg_ne v hne
  | branch | store | fatal | halt => rfl

/-- A step changes a register only as the destination of the instruction it decodes: a fetch fault and an INVALID word
change none. -/
theorem step_changes_only_dest {s t : State} {r : RegIdx} (h : step s = .next t) (hr : t.reg r ≠ s.reg r) :
    s.Fetchable ∧ ∃ i, decodeWord s.params (s.mem.wordAt s.pc.toNat) = .ok i ∧ i.dest? = some r := by
  obtain ⟨-, ⟨-, rfl⟩ | ⟨-, -, -, rfl⟩ | ⟨hf, i, hd, -, he⟩ | ⟨-, -, -, ⟨-, rfl⟩ | ⟨-, rfl⟩⟩⟩ := step_cases h
  case inr.inr.inl =>
    refine ⟨hf, i, hd, ?_⟩
    by_contra hne
    exact hr ((he.reg_of_ne_dest hne).trans (s.account_reg i r))
  all_goals exact absurd rfl hr

/-! ### Reads: two states that differ in their registers alone -/

/-- The state with another register file. -/
def State.withRegs (s : State) (y : Vector Word 32) : State := { s with x := y }

/-- `t'` ends as `t` does, whatever stands in the registers the instruction does not write: the destination `d` counts
only where no fatal error keeps it from being written. -/
structure EndsAlike (d : Option RegIdx) (t t' : State) : Prop where
  pc     : t'.pc = t.pc
  mem    : t'.mem = t.mem
  status : t'.status = t.status
  dest   : (∀ f, t.status ≠ .faulted f) → ∀ r, d = some r → t'.reg r = t.reg r

/-- Both results are next states, and they end alike. -/
def AnswerAlike (d : Option RegIdx) (a a' : Result) : Prop :=
  ∃ t t', a = .next t ∧ a' = .next t' ∧ EndsAlike d t t'

section
variable {s : State} {y : Vector Word 32} {rd rs1 rs2 : RegIdx}

/-- Writing the same value to one register keeps two states' agreement on any register. -/
theorem State.reg_setReg_congr {s' : State} {q : RegIdx} (h : s'.reg q = s.reg q) (r : RegIdx) (v : Word) :
    (s'.setReg r v).reg q = (s.setReg r v).reg q := by
  by_cases hq : q = r
  · subst hq; simp
  · rw [s'.reg_setReg_ne v hq, s.reg_setReg_ne v hq, h]

theorem write_alike (rd : RegIdx) (v p : Word) :
    AnswerAlike (some rd) (.next ((s.setReg rd v).setPc p)) (.next (((s.withRegs y).setReg rd v).setPc p)) :=
  ⟨_, _, rfl, rfl, rfl, rfl, rfl, fun _ r hr => by cases hr; simp⟩

theorem setPc_alike (p : Word) : AnswerAlike none (.next (s.setPc p)) (.next ((s.withRegs y).setPc p)) :=
  ⟨_, _, rfl, rfl, rfl, rfl, rfl, fun _ _ hr => nomatch hr⟩

theorem halt_alike : AnswerAlike none (.next s.halt) (.next (s.withRegs y).halt) :=
  ⟨_, _, rfl, rfl, rfl, rfl, rfl, fun _ _ hr => nomatch hr⟩

theorem raiseFatal_alike (d : Option RegIdx) (k : FaultKind) (a : Word) :
    AnswerAlike d (.next (s.raiseFatal k a)) (.next ((s.withRegs y).raiseFatal k a)) :=
  ⟨_, _, rfl, rfl, rfl, rfl, rfl, fun hs => absurd rfl (hs _)⟩

theorem finishLoad_alike (rd : RegIdx) (ea : Word) (v : Option Word) :
    AnswerAlike (some rd) (finishLoad rd ea v s) (finishLoad rd ea v (s.withRegs y)) := by
  cases v with
  | some w => exact write_alike rd w _
  | none => exact raiseFatal_alike _ _ ea

theorem finishStore_alike (ea : Word) (m : Option Memory) :
    AnswerAlike none (finishStore ea m s) (finishStore ea m (s.withRegs y)) := by
  cases m with
  | some m => exact ⟨_, _, rfl, rfl, rfl, rfl, rfl, fun _ _ hr => nomatch hr⟩
  | none => exact raiseFatal_alike _ _ ea

theorem regReg_alike (f : Word → Word → Word) (rd : RegIdx) (h1 : (s.withRegs y).reg rs1 = s.reg rs1)
    (h2 : (s.withRegs y).reg rs2 = s.reg rs2) :
    AnswerAlike (some rd) (regReg f rd rs1 rs2 s) (regReg f rd rs1 rs2 (s.withRegs y)) := by
  rw [regReg, regReg, h1, h2]
  exact write_alike rd _ _

theorem regImm_alike (f : Word → Word → Word) (rd : RegIdx) (imm : Nat) (h1 : (s.withRegs y).reg rs1 = s.reg rs1) :
    AnswerAlike (some rd) (regImm f rd rs1 imm s) (regImm f rd rs1 imm (s.withRegs y)) := by
  rw [regImm, regImm, h1]
  exact write_alike rd _ _

/-- A branch whose condition is a function of its two source values. -/
theorem branchIf_alike (c : Word → Word → Bool) (imm : Nat) (h1 : (s.withRegs y).reg rs1 = s.reg rs1)
    (h2 : (s.withRegs y).reg rs2 = s.reg rs2) :
    AnswerAlike none (branchIf (c (s.reg rs1) (s.reg rs2)) imm s)
      (branchIf (c ((s.withRegs y).reg rs1) ((s.withRegs y).reg rs2)) imm (s.withRegs y)) := by
  rw [h1, h2]
  exact setPc_alike _

theorem effectiveAddress_withRegs (imm : Nat) (h1 : (s.withRegs y).reg rs1 = s.reg rs1) :
    effectiveAddress (s.withRegs y) rs1 imm = effectiveAddress s rs1 imm := by
  rw [effectiveAddress, effectiveAddress, h1]

/-- jalr in both orders: under WRITE_FIRST with rd = rs1 the base is the link, which both states write alike (D12). -/
theorem execJalr_alike (rd : RegIdx) (imm : Nat) (h1 : (s.withRegs y).reg rs1 = s.reg rs1) :
    AnswerAlike (some rd) (execJalr rd rs1 imm s) (execJalr rd rs1 imm (s.withRegs y)) := by
  cases ho : s.params.jalrOrder with
  | writeFirst =>
    rw [execJalr_writeFirst ho, execJalr_writeFirst (s := s.withRegs y) ho, State.reg_setReg_congr h1]
    exact write_alike rd _ _
  | readFirst =>
    rw [execJalr_readFirst ho, execJalr_readFirst (s := s.withRegs y) ho, h1]
    exact write_alike rd _ _

/-- From two states that agree on its sources, an instruction answers alike. -/
theorem exec_alike (i : Instr) (h : ∀ r ∈ i.sources, (s.withRegs y).reg r = s.reg r) :
    AnswerAlike i.dest? (exec i s) (exec i (s.withRegs y)) := by
  cases i with
  | add rd rs1 rs2 | sub rd rs1 rs2 | xor rd rs1 rs2 | and rd rs1 rs2 =>
    exact regReg_alike _ rd (h rs1 (by simp [Instr.sources])) (h rs2 (by simp [Instr.sources]))
  | srl rd rs1 rs2 =>
    exact regReg_alike (fun a b => shiftRightLogical a (shamt s.params.shamtMode b)) rd
      (h rs1 (by simp [Instr.sources])) (h rs2 (by simp [Instr.sources]))
  | sra rd rs1 rs2 =>
    exact regReg_alike (fun a b => shiftRightArith a (shamt s.params.shamtMode b)) rd
      (h rs1 (by simp [Instr.sources])) (h rs2 (by simp [Instr.sources]))
  | addi rd rs1 imm | subi rd rs1 imm | xori rd rs1 imm =>
    exact regImm_alike _ rd imm (h rs1 (by simp [Instr.sources]))
  | srai rd rs1 imm =>
    exact regImm_alike (fun a b => shiftRightArith a (shamt s.params.shamtMode b)) rd imm
      (h rs1 (by simp [Instr.sources]))
  | beq rs1 rs2 imm | bge rs1 rs2 imm | blt rs1 rs2 imm =>
    exact branchIf_alike _ imm (h rs1 (by simp [Instr.sources])) (h rs2 (by simp [Instr.sources]))
  | slti rd rs1 imm => exact write_alike rd _ _
  | jal rd imm => exact write_alike rd _ _
  | jalr rd rs1 imm => exact execJalr_alike rd imm (h rs1 (by simp [Instr.sources]))
  | lw rd rs1 imm | lb rd rs1 imm =>
    simp only [exec, execLw, execLb, effectiveAddress_withRegs imm (h rs1 (by simp [Instr.sources]))]
    exact finishLoad_alike rd _ _
  | sw rs1 rs2 imm | sb rs1 rs2 imm =>
    simp only [exec, execSw, execSb, effectiveAddress_withRegs imm (h rs1 (by simp [Instr.sources])),
      h rs2 (by simp [Instr.sources])]
    exact finishStore_alike _ _
  | halt => exact halt_alike

end

/-- Settles O24: writes by the effects of an instruction, reads by the template each meaning is built from. -/
theorem instructionsWriteAndReadOnlyTheirRegisters : Obligations.InstructionsWriteAndReadOnlyTheirRegisters := by
  unfold Obligations.InstructionsWriteAndReadOnlyTheirRegisters
  refine ⟨fun i s t h r hr => (effect_of_exec h).reg_of_ne_dest hr, ?_, fun s t r => step_changes_only_dest⟩
  intro i s s' t hs hsrc ht
  have hs : s' = s.withRegs s'.x := hs
  rw [hs] at hsrc ⊢
  obtain ⟨u, t', hu, ht', hend⟩ := exec_alike i hsrc
  obtain rfl : u = t := Host.Outcome.next.inj (hu.symm.trans ht)
  exact ⟨t', ht', hend.pc, hend.mem, hend.status, hend.dest⟩

/-- Settles O26: the write-then-read law of registers, then the templates of addi and add one after the other. -/
theorem writeToX0IsReadBack : Obligations.WriteToX0IsReadBack := by
  unfold Obligations.WriteToX0IsReadBack
  refine ⟨fun r v s => s.reg_setReg_same r v, fun rd rs1 imm s t h => ?_⟩
  obtain ⟨t', ht', hx0, -⟩ := regImm_spec (· + ·) 0 rs1 imm s
  obtain rfl : t' = t := Host.Outcome.next.inj (ht'.symm.trans h)
  obtain ⟨u, hu, hsum, -⟩ := regReg_spec (· + ·) rd 0 0 t'
  refine ⟨u, hu, ?_⟩
  rw [hsum, hx0]
  simp only [BitVec.toNat_add, imm32_toNat]
  omega

end Sys2Proof.Machine
end

section
/-! PROOFS. Memory's accesses (spec/20_memory.md R52 to R55): the statements O49 and O50. -/

namespace Sys2Proof.Machine

/-! ### A stored word, byte by byte -/

/-- Inside a stored word, the byte at offset `k` is byte `k` of the word (R55). -/
theorem Memory.byteAt_setWord_lane (m : Memory) (a : Nat) (w : Word) {k : Nat} (h : k < 4) :
    (m.setWord a w).byteAt (a + k) = byteOfWord w k := by
  have hin : a ≤ a + k ∧ a + k < a + 4 := by omega
  rw [m.byteAt_setWord, if_pos hin, Nat.add_sub_cancel_left]

/-- Outside a stored word, every byte is as before (R55). -/
theorem Memory.byteAt_setWord_outside (m : Memory) {a b : Nat} (w : Word) (h : b < a ∨ a + 4 ≤ b) :
    (m.setWord a w).byteAt b = m.byteAt b := by
  have hout : ¬ (a ≤ b ∧ b < a + 4) := by omega
  rw [m.byteAt_setWord, if_neg hout]

/-! ### The statements -/

/-- Settles O49: the bounds decide both accesses; the word stored is then read off lane by lane, most significant
first. -/
theorem wordAccessIsBigEndianAndBounded : Obligations.WordAccessIsBigEndianAndBounded := by
  unfold Obligations.WordAccessIsBigEndianAndBounded
  intro m a v n
  constructor
  · intro h
    have hb : InBounds a 4 := h
    have lane : ∀ k < 4, (m.setWord n v).byteAt (n + k) = byteOfWord v k := fun k => m.byteAt_setWord_lane n v
    exact ⟨m.readWord_of_inBounds hb, m.setWord n v, m.writeWord_of_inBounds v hb, lane 0 (by decide),
      lane 1 (by decide), lane 2 (by decide), lane 3 (by decide), fun b => m.byteAt_setWord_outside v⟩
  · intro h
    have hb : ¬ InBounds a 4 := h
    exact ⟨m.readWord_of_not_inBounds hb, m.writeWord_of_not_inBounds v hb⟩

/-- Settles O50: the bounds decide both accesses; the byte stored is then read back at its address alone. -/
theorem byteAccessIsBounded : Obligations.ByteAccessIsBounded := by
  unfold Obligations.ByteAccessIsBounded
  intro m a v
  constructor
  · intro h
    have hb : InBounds a 1 := h
    exact ⟨m.readByte_of_inBounds hb, m.setByte a.toNat v, m.writeByte_of_inBounds v hb,
      m.byteAt_setByte_same a.toNat v, fun b => m.byteAt_setByte_ne v⟩
  · intro h
    have hb : ¬ InBounds a 1 := h
    exact ⟨m.readByte_of_not_inBounds hb, m.writeByte_of_not_inBounds v hb⟩

end Sys2Proof.Machine
end

section
/-! PROOFS. The class function (spec/30_encoding.md R72): the statement O5. -/

namespace Sys2Proof

/-- Settles O5: each of the decoder's three answers meets one clause, and contradicts the premises of the other two. -/
theorem wordIsClassifiedByHaltTestThenOpcode : Obligations.WordIsClassifiedByHaltTestThenOpcode := by
  unfold Obligations.WordIsClassifiedByHaltTestThenOpcode
  intro p w hp isHalt
  have haltTest : isHaltWord p w = true ↔ isHalt := isHaltWord_iff
  rcases decodeWord_cases p w with ⟨hw, hd, hc⟩ | ⟨n, hw, hn, hd, hc⟩ | ⟨hw, hnone, hd, hc⟩
  · have yes : isHalt := haltTest.mp hw
    exact ⟨fun _ => ⟨hc, hd⟩, fun no => absurd yes no, fun no => absurd yes no⟩
  · have no : ¬ isHalt := fun yes => by simp [haltTest.mpr yes] at hw
    refine ⟨fun yes => absurd yes no, fun _ m hm => ?_, fun _ hnone => absurd hn (hnone n)⟩
    obtain rfl : n = m := hp.1.inj (hn.trans hm.symm)
    exact ⟨hc, Instr.ofWord w n, hd, Instr.mnemonic?_ofWord w n⟩
  · have no : ¬ isHalt := fun yes => by simp [haltTest.mpr yes] at hw
    exact ⟨fun yes => absurd yes no, fun _ m hm => absurd hm (hnone m), fun _ _ => ⟨hc, hd⟩⟩

end Sys2Proof
end

section
/-! PROOFS. The accounting of HALT (spec/40_step.md R104): the statement O12. -/

namespace Sys2Proof.Machine

/-- HALT only ends the run (R200). -/
theorem exec_halt (s : State) : exec .halt s = .next s.halt := rfl

/-- HALT has no cost bucket. -/
theorem account_halt_cycles (s : State) : (s.account .halt).cycles = s.cycles := by
  rw [account_halt]
  split
  · exact s.retire_cycles
  · rfl

/-- HALT is counted as retired only under `COUNT_HALT`. -/
theorem account_halt_instret (s : State) :
    (s.account .halt).instret =
      if s.params.countHalt then (s.instret + 1) % 2 ^ s.params.cntWidth else s.instret := by
  rw [account_halt]
  split
  · exact s.retire_instret
  · rfl

/-- Settles O12: the step is HALT on the accounted state, and HALT itself leaves the counters alone. -/
theorem haltIsRetiredOnlyUnderCountHalt : Obligations.HaltIsRetiredOnlyUnderCountHalt := by
  unfold Obligations.HaltIsRetiredOnlyUnderCountHalt
  intro s hr hf hd
  have hstep : step s = .next (s.account .halt).halt := by rw [step_instr hr hf hd, exec_halt]
  exact ⟨_, hstep, by rw [State.halt_cycles, account_halt_cycles], by rw [State.halt_instret, account_halt_instret]⟩

end Sys2Proof.Machine
end

section
/-! PROOFS. Register-register instructions (spec/41_register_register.md R120 to R127): the statements O27 to O32. -/

namespace Sys2Proof.Machine

/-! ### Decode -/

/-- Under legal parameters, every mnemonic's words are read as its layout says (R72, R73, R102). -/
theorem decodesAs_ofWord (m : Mnemonic) : DecodesAs m fun w => Instr.ofWord w m := by
  intro p w ⟨hopc, _⟩ hop
  exact decodeWord_of_opcode hopc hop

/-! ### Values -/

/-- The unsigned value of a difference, read in the integers. -/
theorem toNat_sub_eq_emod (a b : Word) : ((a - b).toNat : Int) = ((a.toNat : Int) - b.toNat) % 2 ^ 32 := by
  have hb : b.toNat < 2 ^ 32 := b.isLt
  rw [BitVec.toNat_sub]
  omega

theorem shamt_low5 (v : Word) : shamt .low5 v = v.toNat % 32 := rfl

theorem shamt_saturate (v : Word) : shamt .saturate v = min v.toNat 32 := rfl

/-! ### Meanings: each is the template of R127 with one function of the two source values -/

section
variable (rd rs1 rs2 : RegIdx) (s : State)

theorem exec_add : exec (.add rd rs1 rs2) s = regReg (fun a b => a + b) rd rs1 rs2 s := rfl

theorem exec_sub : exec (.sub rd rs1 rs2) s = regReg (fun a b => a - b) rd rs1 rs2 s := rfl

theorem exec_xor : exec (.xor rd rs1 rs2) s = regReg (fun a b => a ^^^ b) rd rs1 rs2 s := rfl

theorem exec_and : exec (.and rd rs1 rs2) s = regReg (fun a b => a &&& b) rd rs1 rs2 s := rfl

theorem exec_srl : exec (.srl rd rs1 rs2) s =
    regReg (fun a b => shiftRightLogical a (shamt s.params.shamtMode b)) rd rs1 rs2 s := rfl

theorem exec_sra : exec (.sra rd rs1 rs2) s =
    regReg (fun a b => shiftRightArith a (shamt s.params.shamtMode b)) rd rs1 rs2 s := rfl

end

/-! ### The statements -/

/-- Settles O27: the template of R127, at addition. -/
theorem addWritesTheSum : Obligations.AddWritesTheSum := by
  unfold Obligations.AddWritesTheSum
  refine ⟨decodesAs_ofWord .add, fun rd rs1 rs2 s => ?_⟩
  obtain ⟨t, ht, hval, hpc, hframe⟩ := regReg_spec (fun a b => a + b) rd rs1 rs2 s
  exact ⟨t, (exec_add rd rs1 rs2 s).trans ht, by rw [hval, BitVec.toNat_add], hpc, hframe⟩

/-- Settles O28: the template of R127, at subtraction. -/
theorem subWritesTheDifference : Obligations.SubWritesTheDifference := by
  unfold Obligations.SubWritesTheDifference
  refine ⟨decodesAs_ofWord .sub, fun rd rs1 rs2 s => ?_⟩
  obtain ⟨t, ht, hval, hpc, hframe⟩ := regReg_spec (fun a b => a - b) rd rs1 rs2 s
  exact ⟨t, (exec_sub rd rs1 rs2 s).trans ht, by rw [hval, toNat_sub_eq_emod], hpc, hframe⟩

/-- Settles O29: the template of R127, at the exclusive or. -/
theorem xorWritesTheExclusiveOr : Obligations.XorWritesTheExclusiveOr := by
  unfold Obligations.XorWritesTheExclusiveOr
  refine ⟨decodesAs_ofWord .xor, fun rd rs1 rs2 s => ?_⟩
  obtain ⟨t, ht, hval, hpc, hframe⟩ := regReg_spec (fun a b => a ^^^ b) rd rs1 rs2 s
  exact ⟨t, (exec_xor rd rs1 rs2 s).trans ht, fun n _ => by rw [hval, BitVec.getLsbD_xor], hpc, hframe⟩

/-- Settles O30: the template of R127, at the conjunction. -/
theorem andWritesTheConjunction : Obligations.AndWritesTheConjunction := by
  unfold Obligations.AndWritesTheConjunction
  refine ⟨decodesAs_ofWord .and, fun rd rs1 rs2 s => ?_⟩
  obtain ⟨t, ht, hval, hpc, hframe⟩ := regReg_spec (fun a b => a &&& b) rd rs1 rs2 s
  exact ⟨t, (exec_and rd rs1 rs2 s).trans ht, fun n _ => by rw [hval, BitVec.getLsbD_and], hpc, hframe⟩

/-- Settles O31: the quotient by 2 to the shift amount, which is at most 32 in both modes of R126. -/
theorem srlDividesTheUnsignedValue : Obligations.SrlDividesTheUnsignedValue := by
  unfold Obligations.SrlDividesTheUnsignedValue
  refine ⟨decodesAs_ofWord .srl, fun rd rs1 rs2 s => ?_⟩
  obtain ⟨t, ht, hval, hpc, hframe⟩ :=
    regReg_spec (fun a b => shiftRightLogical a (shamt s.params.shamtMode b)) rd rs1 rs2 s
  have hquot : (t.reg rd).toNat = (s.reg rs1).toNat / 2 ^ shamt s.params.shamtMode (s.reg rs2) := by
    rw [hval, shiftRightLogical_toNat _ (shamt_le _ _)]
  exact ⟨t, (exec_srl rd rs1 rs2 s).trans ht, fun hmode => by rw [hquot, hmode, shamt_low5],
    fun hmode => by rw [hquot, hmode, shamt_saturate], hpc, hframe⟩

/-- Settles O32: the floored quotient by 2 to the shift amount, which is at most 32 in both modes of R126. -/
theorem sraDividesTheSignedValue : Obligations.SraDividesTheSignedValue := by
  unfold Obligations.SraDividesTheSignedValue
  refine ⟨decodesAs_ofWord .sra, fun rd rs1 rs2 s => ?_⟩
  obtain ⟨t, ht, hval, hpc, hframe⟩ :=
    regReg_spec (fun a b => shiftRightArith a (shamt s.params.shamtMode b)) rd rs1 rs2 s
  have hquot : (t.reg rd).toInt = (s.reg rs1).toInt / 2 ^ shamt s.params.shamtMode (s.reg rs2) := by
    rw [hval, shiftRightArith_toInt _ (shamt_le _ _)]
  exact ⟨t, (exec_sra rd rs1 rs2 s).trans ht, fun hmode => by rw [hquot, hmode, shamt_low5],
    fun hmode => by rw [hquot, hmode, shamt_saturate], hpc, hframe⟩

end Sys2Proof.Machine
end

section
/-! PROOFS. Immediate instructions (spec/42_immediate.md R140 to R145): the statements O33 to O37. -/

namespace Sys2Proof.Machine

/-! ### Values -/

/-- Bit by bit, a zero-extended immediate is the immediate: from bit 12 up both sides are false (R80). -/
theorem imm32_getLsbD (imm : BitVec 12) {n : Nat} (h : n < 32) : (imm32 imm.toNat).getLsbD n = imm.getLsbD n := by
  simp [imm32, h]

/-- A difference with an immediate of any size, read in the integers. -/
theorem toNat_sub_imm32_eq_emod (a : Word) (imm : Nat) :
    ((a - imm32 imm).toNat : Int) = ((a.toNat : Int) - imm) % 2 ^ 32 := by
  rw [toNat_sub_eq_emod, imm32_toNat]
  omega

/-- A twelve-bit immediate keeps its value. -/
theorem imm32_toNat_of_lt {imm : Nat} (h : imm < 4096) : (imm32 imm).toNat = imm := by
  rw [imm32_toNat]
  omega

theorem indexBelow_of_lt {r : RegIdx} {imm : Nat} (h : r.toNat < imm) : indexBelow r imm = 1 := if_pos h

theorem indexBelow_of_le {r : RegIdx} {imm : Nat} (h : imm ≤ r.toNat) : indexBelow r imm = 0 :=
  if_neg (Nat.not_lt.mpr h)

/-! ### Meanings: each but slti is the template of R145 with one function of the source value and the immediate -/

section
variable (rd rs1 : RegIdx) (imm : Nat) (s : State)

theorem exec_addi : exec (.addi rd rs1 imm) s = regImm (fun a b => a + b) rd rs1 imm s := rfl

theorem exec_subi : exec (.subi rd rs1 imm) s = regImm (fun a b => a - b) rd rs1 imm s := rfl

theorem exec_xori : exec (.xori rd rs1 imm) s = regImm (fun a b => a ^^^ b) rd rs1 imm s := rfl

theorem exec_slti : exec (.slti rd rs1 imm) s = .next (s.writeAndAdvance rd (indexBelow rs1 imm)) := rfl

theorem exec_srai : exec (.srai rd rs1 imm) s =
    regImm (fun a b => shiftRightArith a (shamt s.params.shamtMode b)) rd rs1 imm s := rfl

end

/-! ### The statements -/

/-- Settles O33: the template of R145, at addition. -/
theorem addiWritesTheSumWithTheUnsignedImmediate : Obligations.AddiWritesTheSumWithTheUnsignedImmediate := by
  unfold Obligations.AddiWritesTheSumWithTheUnsignedImmediate
  refine ⟨decodesAs_ofWord .addi, fun rd rs1 imm s => ?_⟩
  obtain ⟨t, ht, hval, hpc, hframe⟩ := regImm_spec (fun a b => a + b) rd rs1 imm s
  have hsum : (t.reg rd).toNat = ((s.reg rs1).toNat + imm) % 2 ^ 32 := by
    rw [hval, BitVec.toNat_add, imm32_toNat, Nat.add_mod_mod]
  exact ⟨t, (exec_addi rd rs1 imm s).trans ht, hsum, hpc, hframe⟩

/-- Settles O34: the template of R145, at subtraction. -/
theorem subiWritesTheDifferenceWithTheUnsignedImmediate :
    Obligations.SubiWritesTheDifferenceWithTheUnsignedImmediate := by
  unfold Obligations.SubiWritesTheDifferenceWithTheUnsignedImmediate
  refine ⟨decodesAs_ofWord .subi, fun rd rs1 imm s => ?_⟩
  obtain ⟨t, ht, hval, hpc, hframe⟩ := regImm_spec (fun a b => a - b) rd rs1 imm s
  exact ⟨t, (exec_subi rd rs1 imm s).trans ht, by rw [hval, toNat_sub_imm32_eq_emod], hpc, hframe⟩

/-- Settles O35: the template of R145, at the exclusive or; from bit 12 up the immediate has only zeros. -/
theorem xoriFlipsOnlyTheLowTwelveBits : Obligations.XoriFlipsOnlyTheLowTwelveBits := by
  unfold Obligations.XoriFlipsOnlyTheLowTwelveBits
  refine ⟨decodesAs_ofWord .xori, fun rd rs1 imm s => ?_⟩
  obtain ⟨t, ht, hval, hpc, hframe⟩ := regImm_spec (fun a b => a ^^^ b) rd rs1 imm.toNat s
  have hbit : ∀ n < 32, (t.reg rd).getLsbD n = ((s.reg rs1).getLsbD n != imm.getLsbD n) := fun n hn => by
    rw [hval, BitVec.getLsbD_xor, imm32_getLsbD imm hn]
  refine ⟨t, (exec_xori rd rs1 imm.toNat s).trans ht, fun n hn => hbit n (by omega), fun n hlo hn => ?_, hpc, hframe⟩
  rw [hbit n hn, BitVec.getLsbD_of_ge imm n hlo, Bool.bne_false]

/-- Settles O36: the write of R145, at the comparison of the register's number, which no state enters. -/
theorem sltiComparesTheRegisterNumber : Obligations.SltiComparesTheRegisterNumber := by
  unfold Obligations.SltiComparesTheRegisterNumber
  refine ⟨decodesAs_ofWord .slti, fun rd rs1 imm s => ?_⟩
  have hval : (s.writeAndAdvance rd (indexBelow rs1 imm)).reg rd = indexBelow rs1 imm := by simp
  exact ⟨_, exec_slti rd rs1 imm s, fun hlt => hval.trans (indexBelow_of_lt hlt),
    fun hle => hval.trans (indexBelow_of_le hle), rfl, frame_writeAndAdvance s rd _⟩

/-- Settles O37: the floored quotient by 2 to the shift amount, which is at most 32 in both modes of R126. -/
theorem sraiDividesTheSignedValue : Obligations.SraiDividesTheSignedValue := by
  unfold Obligations.SraiDividesTheSignedValue
  refine ⟨decodesAs_ofWord .srai, fun rd rs1 imm s himm => ?_⟩
  obtain ⟨t, ht, hval, hpc, hframe⟩ :=
    regImm_spec (fun a b => shiftRightArith a (shamt s.params.shamtMode b)) rd rs1 imm s
  have hquot : (t.reg rd).toInt = (s.reg rs1).toInt / 2 ^ shamt s.params.shamtMode (imm32 imm) := by
    rw [hval, shiftRightArith_toInt _ (shamt_le _ _)]
  have himm32 : (imm32 imm).toNat = imm := imm32_toNat_of_lt himm
  exact ⟨t, (exec_srai rd rs1 imm s).trans ht, fun hmode => by rw [hquot, hmode, shamt_low5, himm32],
    fun hmode => by rw [hquot, hmode, shamt_saturate, himm32], hpc, hframe⟩

end Sys2Proof.Machine
end

section
/-! PROOFS. Control transfer (spec/43_control_transfer.md R162, R163): the statement O39. -/

namespace Sys2Proof.Machine

/-! ### Conditions -/

theorem condEq_of_eq {a b : Word} (h : a = b) : condEq a b = true := beq_iff_eq.mpr h

theorem condEq_of_ne {a b : Word} (h : a ≠ b) : condEq a b = false := beq_eq_false_iff_ne.mpr h

/-! ### Meanings: a branch is the template of R162 with one condition on the two source values -/

theorem exec_beq (rs1 rs2 : RegIdx) (imm : Nat) (s : State) :
    exec (.beq rs1 rs2 imm) s = branchIf (condEq (s.reg rs1) (s.reg rs2)) imm s := rfl

/-! ### The statements -/

/-- Settles O39: the template of R162, at equality. -/
theorem beqBranchesWhenEqual : Obligations.BeqBranchesWhenEqual := by
  unfold Obligations.BeqBranchesWhenEqual
  refine ⟨decodesAs_ofWord .beq, fun rs1 rs2 imm s => ?_⟩
  obtain ⟨t, ht, hpc, hframe⟩ := branchIf_spec (condEq (s.reg rs1) (s.reg rs2)) imm s
  refine ⟨t, (exec_beq rs1 rs2 imm s).trans ht, fun heq => ?_, fun hne => ?_, hframe⟩
  · rw [hpc, condEq_of_eq heq, if_pos rfl]
  · rw [hpc, condEq_of_ne hne, if_neg Bool.false_ne_true]

end Sys2Proof.Machine
end

section
/-! PROOFS. The execution time (spec/60_exceptions.md R221): the statement O54. -/

namespace Sys2Proof.Machine

/-! ### The execution time -/

/-- At a frequency that R221 allows, the execution time is the quotient of the cycles by the frequency in hertz. -/
theorem executionTime_of_legal {s : State} (h : s.params.cfg.legal) :
    s.executionTime = some ((s.cycles : Rat) / ((s.params.cfg.freqMhz : Rat) * 1000000)) := by
  rw [State.executionTime, if_pos h, Nat.cast_mul, Nat.cast_ofNat]

/-- A positive frequency in MHz is a nonzero number of hertz, so the quotient of R221 is exact. -/
theorem hertz_ne_zero {freqMhz : Nat} (h : 0 < freqMhz) : (freqMhz : Rat) * 1000000 ≠ 0 :=
  mul_ne_zero (Nat.cast_ne_zero.mpr h.ne') (by norm_num)

/-! ### The statement -/

/-- Settles O54: the quotient of R221 times its divisor, which is not zero. -/
theorem executionTimeIsCyclesOverFrequency : Obligations.ExecutionTimeIsCyclesOverFrequency := by
  unfold Obligations.ExecutionTimeIsCyclesOverFrequency
  exact fun s hfreq => ⟨_, executionTime_of_legal hfreq, div_mul_cancel₀ _ (hertz_ne_zero hfreq)⟩

end Sys2Proof.Machine
end

section
/-! PROOFS. Reset and the fixed parameters (spec/70_reset_and_hazards.md R240, R244): the statements O20 and O25. -/

namespace Sys2Proof.Machine

/-! ### What every step keeps -/

/-- No step changes the parameters: accounting touches the counters alone, and no effect touches the parameters. -/
theorem step_params {s t : State} (h : step s = .next t) : t.params = s.params := by
  obtain ⟨-, ⟨-, rfl⟩ | ⟨-, -, -, rfl⟩ | ⟨-, i, -, -, he⟩ | ⟨-, -, -, ⟨-, rfl⟩ | ⟨-, rfl⟩⟩⟩ := step_cases h
  case inr.inr.inl => exact he.params.trans (s.account_params i)
  all_goals rfl

/-- What every step keeps of a state, a run of any length keeps. -/
theorem run_keeps {α : Type} (f : State → α) (hstep : ∀ s t, step s = .next t → f t = f s) {k : Nat} {s t : State}
    (h : Sys2Proof.core.run k s = .next t) : f t = f s := by
  induction k generalizing s with
  | zero => cases h; rfl
  | succ k ih =>
    obtain ⟨u, hs, hk⟩ := run_succ_next h
    exact (ih hk).trans (hstep s u hs)

/-! ### Reset -/

/-- The host's reset keeps the parameters, so what holds after it from any state holds of the reset state. -/
theorem State.hostReset_reset : State.reset.hostReset = State.reset := rfl

/-- Every register is 0 after the host's reset (R240). -/
@[simp] theorem State.hostReset_reg (s : State) (r : RegIdx) : s.hostReset.reg r = 0 :=
  (State.reg_congr rfl r).trans (State.reset_reg r)

/-- Memory after the host's reset is the zero memory (R240). -/
@[simp] theorem State.hostReset_mem (s : State) : s.hostReset.mem = Memory.zero := rfl

/-! ### The statements -/

/-- Settles O20: no step changes the parameters, so no run does. -/
theorem runsNeverChangeTheParameters : Obligations.RunsNeverChangeTheParameters := by
  unfold Obligations.RunsNeverChangeTheParameters
  exact fun _ _ _ h => run_keeps State.params (fun _ _ => step_params) h

/-- Settles O25: the reset state is a host's reset as well, and that reset sets every field but the parameters. -/
theorem resetZeroesEverythingAndRuns : Obligations.ResetZeroesEverythingAndRuns := by
  unfold Obligations.ResetZeroesEverythingAndRuns
  intro s t ht
  obtain ⟨u, rfl⟩ : ∃ u : State, t = u.hostReset :=
    ht.elim (fun h => ⟨State.reset, h.trans State.hostReset_reset.symm⟩) (fun h => ⟨s, h⟩)
  refine ⟨u.hostReset_reg, rfl, fun a _ => ?_, rfl, rfl, rfl⟩
  rw [u.hostReset_mem, Memory.byteAt_zero]

end Sys2Proof.Machine
end

section
/-! PROOFS. The encoder and the decoder (spec/30_encoding.md R72 to R87): the statements O1 to O4 and O6 to O8. -/

namespace Sys2Proof

/-! ### Encode, then decode (R87) -/

/-- A well-formed instruction with a mnemonic has a word, which carries the mnemonic's opcode and whose fields, read by
the mnemonic's layout, are the instruction's. -/
theorem encode_reads_back (p : Params) {i : Instr} {m : Mnemonic} (hm : i.mnemonic? = some m)
    (hwf : i.wellFormed = true) : ∃ w, encode p i = some w ∧ opField w = p.opc.of m ∧ Instr.ofWord w m = i := by
  cases i with
  | add rd rs1 rs2 | sub rd rs1 rs2 | xor rd rs1 rs2 | and rd rs1 rs2 | srl rd rs1 rs2 | sra rd rs1 rs2 =>
    obtain ⟨w, he, hop, hrd, hrs1, hrs2⟩ := encodeR_spec (p.opc.of m) rd rs1 rs2
    cases hm
    exact ⟨w, he, hop, by rw [Instr.ofWord, hrd, hrs1, hrs2]⟩
  | addi rd rs1 imm | subi rd rs1 imm | xori rd rs1 imm | slti rd rs1 imm | srai rd rs1 imm | jalr rd rs1 imm
  | lw rd rs1 imm | lb rd rs1 imm =>
    obtain ⟨w, he, hop, hrd, hrs1, himm⟩ := encodeI_spec (p.opc.of m) rd rs1 (of_decide_eq_true hwf)
    cases hm
    exact ⟨w, he, hop, by rw [Instr.ofWord, hrd, hrs1, himm]⟩
  | beq rs1 rs2 imm | bge rs1 rs2 imm | blt rs1 rs2 imm | sw rs1 rs2 imm | sb rs1 rs2 imm =>
    obtain ⟨w, he, hop, hrs1, hrs2, himm⟩ := encodeSB_spec (p.opc.of m) rs1 rs2 (of_decide_eq_true hwf)
    cases hm
    exact ⟨w, he, hop, by rw [Instr.ofWord, hrs1, hrs2, himm]⟩
  | jal rd imm =>
    obtain ⟨w, he, hop, hrd, himm⟩ := encodeJ_spec (p.opc.of m) rd (of_decide_eq_true hwf)
    cases hm
    exact ⟨w, he, hop, by rw [Instr.ofWord, hrd, himm]⟩
  | halt => cases hm

/-- HALT alone has no mnemonic (R41). -/
theorem Instr.mnemonic?_eq_none {i : Instr} : i.mnemonic? = none ↔ i = .halt := by
  cases i <;> simp [Instr.mnemonic?]

/-- Settles O1: HALT is the halt word; every other instruction's word carries its mnemonic's opcode, and its fields read
back. -/
theorem encodeThenDecodeGivesTheInstruction : Obligations.EncodeThenDecodeGivesTheInstruction := by
  unfold Obligations.EncodeThenDecodeGivesTheInstruction
  intro p i ⟨hopc, _⟩ hwf
  cases hm : i.mnemonic? with
  | none =>
    obtain rfl : i = .halt := Instr.mnemonic?_eq_none.mp hm
    exact ⟨haltWord, rfl, decodeWord_of_isHaltWord (isHaltWord_haltWord p)⟩
  | some m =>
    obtain ⟨w, he, hop, hback⟩ := encode_reads_back p hm hwf
    exact ⟨w, he, by rw [decodeWord_of_opcode hopc hop, hback]⟩

/-! ### Decode, then encode (R82, R87) -/

/-- A word that decodes to an instruction other than HALT carries a mnemonic's opcode, and the instruction is that
mnemonic's. -/
theorem decodeWord_ok_cases {p : Params} {w : Word} {i : Instr} (h : decodeWord p w = .ok i) :
    (i = .halt ∧ classify p w = .halt) ∨
    ∃ m, p.opc.of m = opField w ∧ i = Instr.ofWord w m ∧ classify p w = m.cls := by
  rcases decodeWord_cases p w with ⟨_, hd, hc⟩ | ⟨m, _, hop, hd, hc⟩ | ⟨_, _, hd, _⟩
  · exact .inl ⟨Except.ok.inj (h.symm.trans hd), hc⟩
  · exact .inr ⟨m, hop, Except.ok.inj (h.symm.trans hd), hc⟩
  · exact nomatch h.symm.trans hd

/-- What the decoder gives fits its layout. -/
theorem wellFormed_of_decodeWord {p : Params} {w : Word} {i : Instr} (h : decodeWord p w = .ok i) :
    i.wellFormed = true := by
  obtain ⟨rfl, -⟩ | ⟨m, -, rfl, -⟩ := decodeWord_ok_cases h
  · rfl
  · exact Instr.wellFormed_ofWord w m

/-- Settles O2: the encoder gives the word with its `-` bits cleared, which is the word exactly when they are 0. -/
theorem decodeThenEncodeGivesTheWordIffUnusedBitsAreZero :
    Obligations.DecodeThenEncodeGivesTheWordIffUnusedBitsAreZero := by
  unfold Obligations.DecodeThenEncodeGivesTheWordIffUnusedBitsAreZero
  intro p w i hd hne
  obtain ⟨hhalt, -⟩ | ⟨m, hop, rfl, -⟩ := decodeWord_ok_cases hd
  · exact absurd hhalt hne
  · rw [encode_ofWord hop, Instr.cls_ofWord, Option.some_inj, unmasked_eq_iff]

/-- Settles O3: the opcode and every field of the layout lie outside the `-` bits. -/
theorem unusedBitsDoNotChangeDecoding : Obligations.UnusedBitsDoNotChangeDecoding := by
  unfold Obligations.UnusedBitsDoNotChangeDecoding
  intro p w w' ⟨hopc, _⟩ hnotHalt hnotInvalid hagree
  rcases decodeWord_cases p w with ⟨_, _, hc⟩ | ⟨m, _, hop, hd, hc⟩ | ⟨_, _, _, hc⟩
  · exact absurd hc hnotHalt
  · rw [hc] at hagree
    have hop' : opField w' = p.opc.of m := by
      rw [hop, ← opField_unmasked w' m.cls, ← hagree, opField_unmasked]
    rw [decodeWord_of_opcode hopc hop', hd, ← Instr.ofWord_unmasked w', ← hagree, Instr.ofWord_unmasked]
  · exact absurd hc hnotInvalid

/-- Settles O4: HALT is of class HALT, and a mnemonic's instruction of the class of its mnemonic. -/
theorem decodedInstructionFitsTheClassOfItsWord : Obligations.DecodedInstructionFitsTheClassOfItsWord := by
  unfold Obligations.DecodedInstructionFitsTheClassOfItsWord
  intro p w i hd
  refine ⟨wellFormed_of_decodeWord hd, ?_⟩
  obtain ⟨rfl, hc⟩ | ⟨m, -, rfl, hc⟩ := decodeWord_ok_cases hd
  · rw [hc]; rfl
  · rw [hc, Instr.cls_ofWord]

/-! ### What the encoder refuses (R86) -/

theorem encodeR_eq_none {o : Opcode} {rd rs1 rs2 : Nat} :
    encodeR o rd rs1 rs2 = none ↔ ¬ (rd < 32 ∧ rs1 < 32 ∧ rs2 < 32) := by simp [encodeR]

theorem encodeI_eq_none {o : Opcode} {rd rs1 imm : Nat} :
    encodeI o rd rs1 imm = none ↔ ¬ (rd < 32 ∧ rs1 < 32 ∧ imm < 4096) := by simp [encodeI]

theorem encodeSB_eq_none {o : Opcode} {rs1 rs2 imm : Nat} :
    encodeSB o rs1 rs2 imm = none ↔ ¬ (rs1 < 32 ∧ rs2 < 32 ∧ imm < 4096) := by simp [encodeSB]

theorem encodeJ_eq_none {o : Opcode} {rd imm : Nat} :
    encodeJ o rd imm = none ↔ ¬ (rd < 32 ∧ imm < 1048576) := by simp [encodeJ]

/-- An instruction's register numbers fit by their type, so the encoder refuses its immediate alone. -/
theorem encode_eq_none (p : Params) (i : Instr) : encode p i = none ↔ i.wellFormed = false := by
  cases hwf : i.wellFormed with
  | true =>
    cases hm : i.mnemonic? with
    | none => obtain rfl : i = .halt := Instr.mnemonic?_eq_none.mp hm; exact ⟨nofun, nofun⟩
    | some m =>
      obtain ⟨w, he, -⟩ := encode_reads_back p hm hwf
      simp [he]
  | false =>
    refine iff_of_true ?_ rfl
    cases i with
    | add _ _ _ | sub _ _ _ | xor _ _ _ | and _ _ _ | srl _ _ _ | sra _ _ _ | halt => cases hwf
    | addi _ _ imm | subi _ _ imm | xori _ _ imm | slti _ _ imm | srai _ _ imm | jalr _ _ imm | lw _ _ imm
    | lb _ _ imm => exact encodeI_eq_none.mpr fun ⟨_, _, himm⟩ => of_decide_eq_false hwf himm
    | beq _ _ imm | bge _ _ imm | blt _ _ imm | sw _ _ imm | sb _ _ imm =>
      exact encodeSB_eq_none.mpr fun ⟨_, _, himm⟩ => of_decide_eq_false hwf himm
    | jal _ imm => exact encodeJ_eq_none.mpr fun ⟨_, himm⟩ => of_decide_eq_false hwf himm

/-- Settles O6: each layout's encoder is guarded by the ranges of its fields, and an instruction's by those of its
layout. -/
theorem encoderRefusesExactlyFieldsOutOfRange : Obligations.EncoderRefusesExactlyFieldsOutOfRange := by
  unfold Obligations.EncoderRefusesExactlyFieldsOutOfRange
  exact ⟨encode_eq_none, fun o a b c => ⟨encodeR_eq_none, encodeI_eq_none, encodeSB_eq_none, encodeJ_eq_none⟩⟩

/-! ### Words under the reference parameters (R84, R85) -/

/-- Settles O7, by running the decoder on the nine words. -/
theorem sampleWordsDecodeToTheirListings : Obligations.SampleWordsDecodeToTheirListings := by
  unfold Obligations.SampleWordsDecodeToTheirListings
  decide

/-- OPC_ref assigns the opcodes 0x01 to 0x14 only (R84). -/
theorem opcRef_range (m : Mnemonic) : 0 < (opcRef.of m).toNat ∧ (opcRef.of m).toNat < 0x15 := by
  cases m <;> decide

/-- Settles O8: such a word is not the halt word, and its opcode is outside the range that OPC_ref assigns. -/
theorem unassignedReferenceOpcodesAreInvalid : Obligations.UnassignedReferenceOpcodesAreInvalid := by
  unfold Obligations.UnassignedReferenceOpcodesAreInvalid
  intro w hne hop
  rcases decodeWord_cases paramsRef w with ⟨hw, _, _⟩ | ⟨m, _, hm, _, _⟩ | ⟨_, _, hd, hc⟩
  · obtain ⟨-, hones⟩ | ⟨hmatch, -⟩ := isHaltWord_iff.mp hw
    · exact absurd hones hne
    · exact nomatch hmatch
  · obtain ⟨hlo, hhi⟩ := opcRef_range m
    have hm : opcRef.of m = w.extractLsb' 0 7 := hm
    rw [hm] at hlo hhi
    rcases hop with hzero | hhigh
    · rw [hzero] at hlo; exact absurd hlo (by decide)
    · exact absurd hhi (Nat.not_lt.mpr hhigh)
  · exact ⟨hc, hd⟩

end Sys2Proof
end

section
/-! PROOFS. The step (spec/40_step.md R100 to R109, spec/45_halt_invalid.md R201 to R203): the statements O9 to O11, O13
to O17, O22 and O23. -/

namespace Sys2Proof

/-! ### INVALID words (R72, R102) -/

/-- No mnemonic is of the class INVALID (R73). -/
theorem Mnemonic.cls_ne_invalid (m : Mnemonic) : m.cls ≠ .invalid := by cases m <;> decide

/-- The decoder rejects the words of the class INVALID by their opcode. -/
theorem decodeWord_of_invalid {p : Params} {w : Word} (h : classify p w = .invalid) :
    decodeWord p w = .error (.invalidOpcode (opField w)) := by
  rcases decodeWord_cases p w with ⟨_, _, hc⟩ | ⟨m, _, _, _, hc⟩ | ⟨_, _, hd, _⟩
  · exact nomatch h.symm.trans hc
  · exact absurd (hc.symm.trans h) m.cls_ne_invalid
  · exact hd

/-- Only a halt word decodes to HALT: a mnemonic's instruction is another (R72, R78). -/
theorem isHaltWord_of_decodeWord {p : Params} {w : Word} (h : decodeWord p w = .ok .halt) :
    isHaltWord p w = true := by
  rcases decodeWord_cases p w with ⟨hw, _, _⟩ | ⟨m, _, _, hd, _⟩ | ⟨_, _, hd, _⟩
  · exact hw
  · have hi : Instr.halt = Instr.ofWord w m := Except.ok.inj (h.symm.trans hd)
    exact nomatch (congrArg Instr.mnemonic? hi).trans (Instr.mnemonic?_ofWord w m)
  · exact nomatch h.symm.trans hd

/-! ### Four bytes (R70) -/

/-- What four bytes decode to, with no byte left over, is what their word decodes to. -/
theorem decodeWord_of_decodeBytes {p : Params} {b0 b1 b2 b3 : Byte} {i : Instr}
    (h : decodeBytes p [b0, b1, b2, b3] = .ok (i, [])) : decodeWord p (wordOfBytes b0 b1 b2 b3) = .ok i := by
  rw [decodeBytes_four] at h
  cases hd : decodeWord p (wordOfBytes b0 b1 b2 b3) with
  | ok j => rw [hd] at h; cases h; rfl
  | error r => rw [hd] at h; cases h

end Sys2Proof

namespace Sys2Proof.Machine

/-! ### Accounting an instruction (R103) -/

/-- The table of R103 is the cost of the mnemonic's bucket. -/
theorem specCost_eq (c : PerfConfig) {i : Instr} {m : Mnemonic} (h : i.mnemonic? = some m) :
    specCost c i = costOf c (bucketOf m) := by
  cases i <;> cases h <;> rfl

/-- An instruction other than HALT adds its cost to the cycles and one to the retired count. -/
theorem account_counts (s : State) {i : Instr} (h : i ≠ .halt) :
    (s.account i).cycles = (s.cycles + specCost s.params.cfg i) % 2 ^ s.params.cntWidth ∧
    (s.account i).instret = (s.instret + 1) % 2 ^ s.params.cntWidth := by
  obtain ⟨m, hm⟩ := Option.ne_none_iff_exists'.mp fun hnone => h (Instr.mnemonic?_eq_none.mp hnone)
  rw [account_retired s hm, specCost_eq _ hm]
  exact ⟨rfl, rfl⟩

/-! ### Accesses (R60, R61, R184) -/

/-- An access depends on the registers alone. -/
theorem accessOf_congr {s t : State} (h : t.x = s.x) (i : Instr) : accessOf t i = accessOf s i := by
  cases i <;> simp only [accessOf, effectiveAddress, State.reg_congr h]

@[simp] theorem accessOf_account (s : State) (i j : Instr) : accessOf (s.account i) j = accessOf s j :=
  accessOf_congr (s.account_x i) j

/-- An instruction that makes an access has a kind of fatal error for it. -/
theorem exists_accessFault {s : State} {i : Instr} {a : Word} {n : Nat} (h : accessOf s i = some (a, n)) :
    ∃ k, i.accessFault? = some k := by
  cases i with
  | lw _ _ _ | lb _ _ _ | sw _ _ _ | sb _ _ _ => exact ⟨_, rfl⟩
  | _ => cases h

/-- The kinds of R184. -/
theorem accessFault_kind {i : Instr} {k : FaultKind} (h : i.accessFault? = some k) :
    k = .loadOutOfBounds ∨ k = .storeOutOfBounds := by
  cases i with
  | lw | lb => cases h; exact .inl rfl
  | sw | sb => cases h; exact .inr rfl
  | _ => cases h

/-- HALT makes no access. -/
theorem ne_halt_of_accessOf {s : State} {i : Instr} {an : Word × Nat} (h : accessOf s i = some an) : i ≠ .halt := by
  rintro rfl; cases h

/-! ### INVALID by its policy (R202) -/

theorem execInvalid_of_spin {s : State} (h : s.params.invalidPolicy = .spin) : execInvalid s = .next s := by
  simp only [execInvalid, h]

theorem execInvalid_of_fault {s : State} (h : s.params.invalidPolicy = .fault) :
    execInvalid s = .next (s.raiseFatal .invalidOpcode s.pc) := by
  simp only [execInvalid, h]

/-! ### Steps that end the run (R109) -/

/-- The five ways a step ends the run, each with what it answers (R109). -/
inductive Ending (s : State) : State → Prop where
  /-- The fetch is out of bounds (R100). -/
  | fetchOutOfBounds (hout : ¬ InBounds s.pc 4) : Ending s (s.raiseFatal .fetchOutOfBounds s.pc)
  /-- The fetch is misaligned under FAULT (R101). -/
  | misaligned (hin : InBounds s.pc 4) (ha : ¬ Aligned s.pc) (hm : s.params.misalignedFetch = .fault) :
      Ending s (s.raiseFatal .misalignedFetch s.pc)
  /-- The decoded instruction's access is out of bounds (R184). -/
  | access (hf : s.Fetchable) (i : Instr) (a : Word) (n : Nat) (k : FaultKind)
      (hd : decodeWord s.params (s.mem.wordAt s.pc.toNat) = .ok i) (ha : accessOf s i = some (a, n))
      (hk : i.accessFault? = some k) (hout : ¬ InBounds a n) : Ending s ((s.account i).raiseFatal k a)
  /-- The word decodes to HALT (R200). -/
  | halt (hf : s.Fetchable) (hd : decodeWord s.params (s.mem.wordAt s.pc.toNat) = .ok .halt) :
      Ending s (s.account .halt).halt
  /-- The word is INVALID under FAULT (R202). -/
  | invalid (hf : s.Fetchable) (hc : classify s.params (s.mem.wordAt s.pc.toNat) = .invalid)
      (hp : s.params.invalidPolicy = .fault) : Ending s (s.retire.raiseFatal .invalidOpcode s.pc)

/-- A step that ends the run does it in one of the five ways. -/
theorem ending_of_step {s t : State} (h : step s = .next t) (ht : t.status ≠ .running) : Ending s t := by
  obtain ⟨hr, ⟨hb, rfl⟩ | ⟨hb, ha, hm, rfl⟩ | ⟨hf, i, hd, -, he⟩ | ⟨hf, hc, -, ⟨-, rfl⟩ | ⟨hp, rfl⟩⟩⟩ := step_cases h
  · exact .fetchOutOfBounds hb
  · exact .misaligned hb ha hm
  · rcases he.status with hsame | ⟨a, n, k, ha, hk, hout, rfl⟩ | ⟨rfl, rfl⟩
    · exact absurd ((hsame.trans (s.account_status i)).trans hr) ht
    · exact .access hf i a n k hd (by rwa [accessOf_account] at ha) hk hout
    · exact .halt hf hd
  · exact absurd hr ht
  · exact .invalid hf hc hp

/-- Each of the five ways leaves the block in a terminal status. -/
theorem Ending.status_ne_running {s t : State} (h : Ending s t) : t.status ≠ .running := by
  cases h <;> exact nofun

/-- From a RUNNING state, each of the five ways is the step. -/
theorem Ending.step_eq {s t : State} (hr : s.status = .running) (h : Ending s t) : step s = .next t := by
  cases h with
  | fetchOutOfBounds hout => exact step_outOfBounds hr hout
  | misaligned hin ha hm =>
    refine step_misaligned hr hin fun ⟨_, hf⟩ => hf.elim ha fun hfetch => ?_
    exact nomatch hm.symm.trans hfetch
  | access hf i a n k hd ha hk hout =>
    rw [step_instr hr hf hd]
    exact exec_outOfBounds ((accessOf_account s i i).trans ha) hk hout
  | halt hf hd => rw [step_instr hr hf hd, exec_halt]
  | invalid hf hc hp =>
    exact (step_invalid hr hf (decodeWord_of_invalid hc)).trans (execInvalid_of_fault hp)

/-- What ending the run leaves unchanged: registers, memory, pc and parameters (R201, R213). -/
theorem Ending.frame {s t : State} (h : Ending s t) : FrameOfFatal s t := by
  cases h with
  | fetchOutOfBounds | misaligned => exact frame_raiseFatal s _ _
  | access _ i => exact ⟨fun r => s.account_reg i r, fun _ => by simp, s.account_pc i, s.account_params i⟩
  | halt =>
    exact ⟨fun r => s.account_reg .halt r, fun _ => by simp, s.account_pc .halt, s.account_params .halt⟩
  | invalid => exact frame_raiseFatal s.retire _ _

/-! ### The hang of R203 -/

/-- A spinning block only counts (R202, R203). -/
theorem step_of_spins {s : State} (h : s.Spins) : step s = .next s.retire := by
  obtain ⟨hr, hf, hc, hp⟩ := h
  exact (step_invalid hr hf (decodeWord_of_invalid hc)).trans (execInvalid_of_spin hp)

/-- A spinning block spins on: nothing the hang depends on has changed. -/
theorem spins_retire {s : State} (h : s.Spins) : s.retire.Spins := h

/-! ### Where the pc goes (R160 to R169) -/

/-- Four bytes after a pc in bounds, the sum does not wrap. -/
theorem toNat_lt_add_four {a : Word} (h : InBounds a 4) : a.toNat < (a + 4).toNat := by
  have hle : a.toNat + 4 ≤ 1048576 := h
  have hsum : (a + 4).toNat = (a.toNat + 4) % 2 ^ 32 := by simp [BitVec.toNat_add]
  omega

/-- A forward target from a pc in bounds is not below it: no immediate of a layout makes the sum wrap. -/
theorem toNat_le_halfwordTarget {s : State} (h : InBounds s.pc 4) {imm : Nat} (hi : imm < 2 ^ 20) :
    s.pc.toNat ≤ (halfwordTarget s imm).toNat := by
  have hle : s.pc.toNat + 4 ≤ 1048576 := h
  have ht := halfwordTarget_toNat s imm
  omega

/-- In bounds, a well-formed instruction other than jalr does not move the pc to a lower address. -/
theorem Effect.pc_le {i : Instr} {s t : State} (h : Effect i s t) (hb : InBounds s.pc 4) (hwf : i.wellFormed = true)
    (hj : ∀ rd rs1 imm, i ≠ .jalr rd rs1 imm) : s.pc.toNat ≤ t.pc.toNat := by
  have hnext : s.pc.toNat ≤ (s.pc + 4).toNat := (toNat_lt_add_four hb).le
  cases h with
  | write rd v p hd hin hp =>
    rcases hp with ⟨rd', rs1, imm, rfl⟩ | ⟨rd', imm, rfl, rfl⟩ | rfl
    · exact absurd rfl (hj rd' rs1 imm)
    · exact toNat_le_halfwordTarget hb (of_decide_eq_true hwf)
    · exact hnext
  | branch imm p hd ha hh hi hp =>
    rcases hp with rfl | rfl
    · exact toNat_le_halfwordTarget hb ((hi hwf).trans (by norm_num))
    · exact hnext
  | store => exact hnext
  | fatal | halt => exact le_rfl

/-! ### The statements -/

/-- Settles O9: the four bytes are the word at the pc, and accounting touches the counters alone. -/
theorem stepRunsTheDecodedInstruction : Obligations.StepRunsTheDecodedInstruction := by
  unfold Obligations.StepRunsTheDecodedInstruction
  intro s i hr hf hbytes
  have hd : decodeWord s.params (s.mem.wordAt s.pc.toNat) = .ok i := decodeWord_of_decodeBytes hbytes
  exact ⟨step_instr hr hf hd, s.account_reg i, fun _ => by rw [State.account_mem], s.account_pc i, s.account_status i,
    s.account_params i⟩

/-- Settles O10: the decoder rejects the word, and the policy decides between the spin and the fatal error. -/
theorem invalidWordSpinsOrFaults : Obligations.InvalidWordSpinsOrFaults := by
  unfold Obligations.InvalidWordSpinsOrFaults
  intro s hr hf hc
  cases hp : s.params.invalidPolicy with
  | spin =>
    exact ⟨s.retire, step_of_spins ⟨hr, hf, hc, hp⟩, fun _ => rfl, fun _ => rfl, rfl, rfl, rfl, rfl, fun _ => hr, nofun⟩
  | fault =>
    exact ⟨_, (Ending.invalid hf hc hp).step_eq hr, fun _ => rfl, fun _ => rfl, rfl, rfl, rfl, rfl, nofun, fun _ => rfl⟩

/-- Settles O11: the step accounts first, and no effect of an instruction touches the counters. -/
theorem stepAddsTheBucketCostAndOneRetired : Obligations.StepAddsTheBucketCostAndOneRetired := by
  unfold Obligations.StepAddsTheBucketCostAndOneRetired
  intro s t i hr hf hd hne h
  rw [step_instr hr hf hd] at h
  obtain ⟨hcycles, hinstret⟩ := (effect_of_exec h).counters
  obtain ⟨hcost, hone⟩ := account_counts s hne
  exact ⟨hcycles.trans hcost, hinstret.trans hone⟩

/-- Settles O13: the fetch fails before anything is accounted. -/
theorem fetchOutOfBoundsIsFatalAndUncounted : Obligations.FetchOutOfBoundsIsFatalAndUncounted := by
  unfold Obligations.FetchOutOfBoundsIsFatalAndUncounted
  exact fun s hr hout => ⟨_, step_outOfBounds hr hout, rfl, frame_raiseFatal s _ _, rfl, rfl⟩

/-- Settles O14: by the parameter, the pc is not fetchable or it is. -/
theorem misalignedFetchFaultsOrFetches : Obligations.MisalignedFetchFaultsOrFetches := by
  unfold Obligations.MisalignedFetchFaultsOrFetches
  refine fun s hr hb ha => ⟨fun hm => ?_, fun hm => step_fetchable hr ⟨hb, .inr hm⟩⟩
  exact ⟨_, (Ending.misaligned hb ha hm).step_eq hr, rfl, frame_raiseFatal s _ _, rfl, rfl⟩

/-- Settles O15: a step that answers a next state started RUNNING, and from a terminal status it answers that status's
fault. -/
theorem stepExistsExactlyWhenRunning : Obligations.StepExistsExactlyWhenRunning := by
  unfold Obligations.StepExistsExactlyWhenRunning
  refine fun s => ⟨⟨fun ⟨t, h⟩ => (step_cases h).1, step_of_running⟩, fun hs => ?_, fun f hs => ?_⟩
  · simp only [step, hs]
  · simp only [step, hs]

/-- Settles O16: the five ways to end the run, read from the step and back to it. -/
theorem terminalStatusArisesInExactlyFiveCases : Obligations.TerminalStatusArisesInExactlyFiveCases := by
  unfold Obligations.TerminalStatusArisesInExactlyFiveCases
  intro s t h w
  have hr : s.status = .running := (step_cases h).1
  have ends : ∀ {u}, Ending s u → t.status ≠ .running := fun {u} hu => by
    obtain rfl : u = t := Host.Outcome.next.inj ((hu.step_eq hr).symm.trans h)
    exact hu.status_ne_running
  constructor
  · intro ht
    cases ending_of_step h ht with
    | fetchOutOfBounds hout => exact .inl hout
    | misaligned hin ha hm => exact .inr (.inl ⟨hin, ha, hm⟩)
    | access hf i a n k hd ha hk hout => exact .inr (.inr (.inl ⟨hf, i, a, n, hd, ha, hout⟩))
    | halt hf hd => exact .inr (.inr (.inr (.inl ⟨hf, hd⟩)))
    | invalid hf hc hp => exact .inr (.inr (.inr (.inr ⟨hf, hc, hp⟩)))
  · rintro (hout | ⟨hin, ha, hm⟩ | ⟨hf, i, a, n, hd, ha, hout⟩ | ⟨hf, hd⟩ | ⟨hf, hc, hp⟩)
    · exact ends (.fetchOutOfBounds hout)
    · exact ends (.misaligned hin ha hm)
    · obtain ⟨k, hk⟩ := exists_accessFault ha
      exact ends (.access hf i a n k hd ha hk hout)
    · exact ends (.halt hf hd)
    · exact ends (.invalid hf hc hp)

/-- Settles O17: the frame of every ending, and for each fatal one whether it comes before or after accounting. -/
theorem endingStepsLeaveRegistersMemoryAndPc : Obligations.EndingStepsLeaveRegistersMemoryAndPc := by
  unfold Obligations.EndingStepsLeaveRegistersMemoryAndPc
  intro s t h ht
  have hend := ending_of_step h ht
  refine ⟨hend.frame, fun f hfault => ?_⟩
  cases hend with
  | fetchOutOfBounds | misaligned => cases hfault; exact ⟨rfl, fun _ => ⟨rfl, rfl⟩, nofun⟩
  | access hf i a n k hd ha hk hout =>
    cases hfault
    refine ⟨s.account_pc i, fun hfetch => ?_, fun _ => (account_counts s (ne_halt_of_accessOf ha)).2⟩
    obtain rfl | rfl := accessFault_kind hk <;> exact nomatch hfetch
  | halt => exact nomatch hfault
  | invalid => cases hfault; exact ⟨rfl, nofun, fun _ => rfl⟩

/-- Settles O22, by induction on the number of steps: each counts one and spins on. -/
theorem invalidWordUnderSpinHangsForEver : Obligations.InvalidWordUnderSpinHangsForEver := by
  unfold Obligations.InvalidWordUnderSpinHangsForEver
  intro k
  induction k with
  | zero =>
    intro s _ _ _ _ hlt
    rw [Nat.add_zero, Nat.mod_eq_of_lt hlt]
    rfl
  | succ k ih =>
    intro s hr hf hc hp _
    have hspins : s.Spins := ⟨hr, hf, hc, hp⟩
    have hlt : s.retire.instret < 2 ^ s.params.cntWidth := Nat.mod_lt _ (Nat.two_pow_pos _)
    obtain ⟨hr', hf', hc', hp'⟩ := spins_retire hspins
    have hcount : (s.retire.instret + k) % 2 ^ s.params.cntWidth = (s.instret + (k + 1)) % 2 ^ s.params.cntWidth := by
      rw [State.retire_instret, Nat.mod_add_mod, Nat.add_assoc, Nat.add_comm 1 k]
    rw [run_succ_of_step (step_of_spins hspins), ih s.retire hr' hf' hc' hp' hlt, ← hcount]
    rfl

/-- Settles O23: a step that does not run a decoded instruction leaves the pc, and of the instructions only jalr can
lower it. -/
theorem onlyJalrMovesThePcBackwards : Obligations.OnlyJalrMovesThePcBackwards := by
  unfold Obligations.OnlyJalrMovesThePcBackwards
  intro s t h hlt
  obtain ⟨-, ⟨-, rfl⟩ | ⟨-, -, -, rfl⟩ | ⟨hf, i, hd, -, he⟩ | ⟨-, -, -, ⟨-, rfl⟩ | ⟨-, rfl⟩⟩⟩ := step_cases h
  case inr.inr.inl =>
    refine ⟨hf, ?_⟩
    by_contra hnone
    have hj : ∀ rd rs1 imm, i ≠ .jalr rd rs1 imm := fun rd rs1 imm e => hnone ⟨rd, rs1, imm, e ▸ hd⟩
    have hpc : (s.account i).pc = s.pc := s.account_pc i
    have hle := he.pc_le (hpc ▸ hf.1) (wellFormed_of_decodeWord hd) hj
    rw [hpc] at hle
    exact absurd hlt (Nat.not_lt.mpr hle)
  all_goals exact absurd hlt (lt_irrefl _)

end Sys2Proof.Machine
end

section
/-! PROOFS. The invariant of the block (spec/10_state.md sections 4 and 5): the statements O18 and O19. -/

namespace Sys2Proof.Machine

/-! ### The data -/

/-- Every step keeps the data invariant: the counters are reduced modulo 2^CNT_WIDTH (R33), and every effect keeps the
form of memory. -/
theorem step_dataInv {s t : State} (h : s.DataInv) (hs : step s = .next t) : t.DataInv := by
  obtain ⟨hm, hc, hn, hl⟩ := h
  have hretire : s.retire.instret < 2 ^ s.params.cntWidth := Nat.mod_lt _ (Nat.two_pow_pos _)
  obtain ⟨-, ⟨-, rfl⟩ | ⟨-, -, -, rfl⟩ | ⟨-, i, -, -, he⟩ | ⟨-, -, -, ⟨-, rfl⟩ | ⟨-, rfl⟩⟩⟩ := step_cases hs
  · exact ⟨hm, hc, hn, hl⟩
  · exact ⟨hm, hc, hn, hl⟩
  · obtain ⟨hcycles, hinstret⟩ := he.counters
    obtain ⟨hc', hn'⟩ := account_counters i hc hn
    have hp : t.params = s.params := he.params.trans (s.account_params i)
    refine ⟨he.mem_wf ((s.account_mem i).symm ▸ hm), ?_, ?_, hp.symm ▸ hl⟩
    · rw [hcycles, hp]; exact hc'
    · rw [hinstret, hp]; exact hn'
  · exact ⟨hm, hc, hretire, hl⟩
  · exact ⟨hm, hc, hretire, hl⟩

/-! ### The terminal status -/

/-- A RUNNING status says nothing of its state. -/
theorem statusFits_of_running {s : State} (h : s.status = .running) : s.StatusFits := by
  simp only [State.StatusFits, h]

/-- Accounting does not change whether the pc can be fetched at (R107). -/
theorem fetchable_account {s : State} (i : Instr) (h : s.Fetchable) : (s.account i).Fetchable := by
  rwa [State.Fetchable, State.account_pc, State.account_params]

/-- Each of the five ways to end the run leaves a status that fits: the check that failed fails in the state it ended
in. -/
theorem Ending.statusFits {s t : State} (h : Ending s t) : t.StatusFits := by
  cases h with
  | fetchOutOfBounds hout => exact ⟨rfl, rfl, hout⟩
  | misaligned hin ha hm => exact ⟨rfl, rfl, hin, ha, hm⟩
  | access hf i a n k hd ha hk hout =>
    have hd' : decodeWord (s.account i).params ((s.account i).mem.wordAt (s.account i).pc.toNat) = .ok i := by
      rwa [State.account_params, State.account_mem, State.account_pc]
    have ha' : accessOf (s.account i) i = some (a, n) := (accessOf_account s i i).trans ha
    refine ⟨rfl, ?_⟩
    obtain rfl | rfl := accessFault_kind hk <;> exact ⟨fetchable_account i hf, i, n, hd', hk, ha', hout⟩
  | halt hf hd =>
    have hword := isHaltWord_of_decodeWord hd
    refine ⟨fetchable_account .halt hf, ?_⟩
    rwa [State.halt_params, State.halt_mem, State.halt_pc, State.account_params, State.account_mem, State.account_pc]
  | invalid hf hc hp => exact ⟨rfl, rfl, hf, hp, hc⟩

/-! ### The statements -/

/-- Settles O18: the data is kept by every step, and a status that is not RUNNING comes from one of the five endings. -/
theorem everyStepKeepsTheInvariant : Obligations.EveryStepKeepsTheInvariant := by
  unfold Obligations.EveryStepKeepsTheInvariant
  intro s t ⟨hdata, _⟩ hs
  refine ⟨step_dataInv hdata hs, ?_⟩
  by_cases hr : t.status = .running
  · exact statusFits_of_running hr
  · exact (ending_of_step hs hr).statusFits

/-- The reset state meets the data invariant (R240). -/
theorem reset_dataInv : State.reset.DataInv := ⟨Memory.zero_wf, by decide, by decide, by decide⟩

/-- Settles O19: memory and counters are zero, the reference parameters are legal, and the status is RUNNING. -/
theorem resetMeetsTheInvariant : Obligations.ResetMeetsTheInvariant := by
  unfold Obligations.ResetMeetsTheInvariant
  exact ⟨reset_dataInv, statusFits_of_running rfl⟩

end Sys2Proof.Machine
end

section
/-! PROOFS. Results do not depend on cfg or the counters (spec/10_state.md R34, spec/70_reset_and_hazards.md R248): the
statement O21. -/

namespace Sys2Proof.Machine

/-! ### The relation: a state and its recounts -/

/-- The state with other counters and another performance configuration. -/
def State.recount (s : State) (c n : Nat) (cfg : PerfConfig) : State :=
  { s with cycles := c, instret := n, params := { s.params with cfg := cfg } }

/-- The states that differ at most in cfg and the counters are the recounts. -/
theorem equalButCounters_iff {s t : State} : EqualButCounters s t ↔ ∃ c n cfg, t = s.recount c n cfg := by
  constructor
  · intro h; exact ⟨t.cycles, t.instret, t.params.cfg, h.symm⟩
  · rintro ⟨c, n, cfg, rfl⟩; rfl

/-! ### Each meaning commutes with a recount -/

section
variable {s t : State} (c n : Nat) (cfg : PerfConfig)

/-- jalr reads its order from the parameters, and a recount keeps it. -/
theorem execJalr_recount {rd rs1 : RegIdx} {imm : Nat} (h : execJalr rd rs1 imm s = .next t) :
    execJalr rd rs1 imm (s.recount c n cfg) = .next (t.recount c n cfg) := by
  cases ho : s.params.jalrOrder with
  | writeFirst =>
    rw [execJalr_writeFirst ho] at h
    rw [execJalr_writeFirst (s := s.recount c n cfg) ho]
    cases h; rfl
  | readFirst =>
    rw [execJalr_readFirst ho] at h
    rw [execJalr_readFirst (s := s.recount c n cfg) ho]
    cases h; rfl

theorem finishLoad_recount {rd : RegIdx} {ea : Word} {v : Option Word} (h : finishLoad rd ea v s = .next t) :
    finishLoad rd ea v (s.recount c n cfg) = .next (t.recount c n cfg) := by
  cases v <;> cases h <;> rfl

theorem finishStore_recount {ea : Word} {m : Option Memory} (h : finishStore ea m s = .next t) :
    finishStore ea m (s.recount c n cfg) = .next (t.recount c n cfg) := by
  cases m <;> cases h <;> rfl

theorem execInvalid_recount (h : execInvalid s = .next t) :
    execInvalid (s.recount c n cfg) = .next (t.recount c n cfg) := by
  rcases execInvalid_cases s with ⟨hp, he⟩ | ⟨hp, he⟩
  · rw [he] at h; cases h
    exact execInvalid_of_spin (s := s.recount c n cfg) hp
  · rw [he] at h; cases h
    exact execInvalid_of_fault (s := s.recount c n cfg) hp

/-- No instruction's meaning reads a counter or cfg. -/
theorem exec_recount {i : Instr} (h : exec i s = .next t) :
    exec i (s.recount c n cfg) = .next (t.recount c n cfg) := by
  cases i with
  | add _ _ _ | sub _ _ _ | xor _ _ _ | and _ _ _ | srl _ _ _ | sra _ _ _ | addi _ _ _ | subi _ _ _ | xori _ _ _
  | slti _ _ _ | srai _ _ _ | beq _ _ _ | bge _ _ _ | blt _ _ _ | jal _ _ | halt => cases h; rfl
  | jalr _ _ _ => exact execJalr_recount c n cfg h
  | lw _ _ _ | lb _ _ _ => exact finishLoad_recount c n cfg h
  | sw _ _ _ | sb _ _ _ => exact finishStore_recount c n cfg h

/-- The accounts of two states that differ in counters and cfg differ in no more. -/
theorem account_recount (s : State) (i : Instr) :
    ∃ c' n', (s.recount c n cfg).account i = (s.account i).recount c' n' cfg := by
  unfold State.account
  split
  · exact ⟨_, _, rfl⟩
  · have hcount : (s.recount c n cfg).params.countHalt = s.params.countHalt := rfl
    rw [hcount]
    split
    · exact ⟨_, _, rfl⟩
    · exact ⟨c, n, rfl⟩

end

/-! ### The step and the run -/

/-- Decode, account and dispatch of the same word from a recount end in a recount. -/
theorem runWord_recount {s t : State} (c n : Nat) (cfg : PerfConfig) {w : Word} (h : runWord s w = .next t) :
    ∃ c' n', runWord (s.recount c n cfg) w = .next (t.recount c' n' cfg) := by
  have hdecode : decodeWord (s.recount c n cfg).params w = decodeWord s.params w := rfl
  unfold runWord at h ⊢
  rw [hdecode]
  cases hd : decodeWord s.params w with
  | ok i =>
    rw [hd] at h
    obtain ⟨c', n', haccount⟩ := account_recount c n cfg s i
    exact ⟨c', n', (congrArg (exec i) haccount).trans (exec_recount c' n' cfg h)⟩
  | error r =>
    rw [hd] at h
    exact ⟨c, (n + 1) % 2 ^ s.params.cntWidth, execInvalid_recount (s := s.accountInvalid) c _ cfg h⟩

/-- A step from a recount is a recount of the step: the fetch reads neither counters nor cfg. -/
theorem step_recount {s t : State} (c n : Nat) (cfg : PerfConfig) (h : step s = .next t) :
    ∃ c' n', step (s.recount c n cfg) = .next (t.recount c' n' cfg) := by
  have hr : s.status = .running := (step_cases h).1
  rcases fetch_cases s with hb | ⟨hb, _, _, hf⟩ | hf
  · rw [step_outOfBounds hr hb] at h; cases h
    exact ⟨c, n, step_outOfBounds (s := s.recount c n cfg) hr hb⟩
  · rw [step_misaligned hr hb hf] at h; cases h
    exact ⟨c, n, step_misaligned (s := s.recount c n cfg) hr hb hf⟩
  · rw [step_fetchable hr hf] at h
    rw [step_fetchable (s := s.recount c n cfg) hr hf]
    exact runWord_recount c n cfg h

/-- Settles O21, by induction on the number of steps: each step of the first run is matched by one of the second. -/
theorem resultsDoNotDependOnCfgOrCounters : Obligations.ResultsDoNotDependOnCfgOrCounters := by
  unfold Obligations.ResultsDoNotDependOnCfgOrCounters
  intro k
  induction k with
  | zero => intro s t s' hst h; cases h; exact ⟨t, rfl, hst⟩
  | succ k ih =>
    intro s t s' hst h
    obtain ⟨c, n, cfg, rfl⟩ := equalButCounters_iff.mp hst
    obtain ⟨u, hu, hk⟩ := run_succ_next h
    obtain ⟨c', n', hu'⟩ := step_recount c n cfg hu
    rw [run_succ_of_step hu']
    exact ih u (u.recount c' n' cfg) s' (equalButCounters_iff.mpr ⟨c', n', cfg, rfl⟩) hk

end Sys2Proof.Machine
end

section
/-! PROOFS. Control transfer (spec/43_control_transfer.md R160 to R167): the statements O38 and O40 to O42. -/

namespace Sys2Proof.Machine

/-! ### Conditions -/

theorem condGe_of_le {a b : Word} (h : b.toInt ≤ a.toInt) : condGe a b = true := decide_eq_true h

theorem condGe_of_lt {a b : Word} (h : a.toInt < b.toInt) : condGe a b = false := decide_eq_false (Int.not_le.mpr h)

theorem condLt_of_lt {a b : Word} (h : a.toInt < b.toInt) : condLt a b = true := decide_eq_true h

theorem condLt_of_le {a b : Word} (h : b.toInt ≤ a.toInt) : condLt a b = false := decide_eq_false (Int.not_lt.mpr h)

/-! ### Meanings -/

theorem exec_bge (rs1 rs2 : RegIdx) (imm : Nat) (s : State) :
    exec (.bge rs1 rs2 imm) s = branchIf (condGe (s.reg rs1) (s.reg rs2)) imm s := rfl

theorem exec_blt (rs1 rs2 : RegIdx) (imm : Nat) (s : State) :
    exec (.blt rs1 rs2 imm) s = branchIf (condLt (s.reg rs1) (s.reg rs2)) imm s := rfl

/-- jal links and jumps at once, from its own pc (R167). -/
theorem exec_jal (rd : RegIdx) (imm : Nat) (s : State) :
    exec (.jal rd imm) s = .next ((s.setReg rd (s.pc + 4)).setPc (halfwordTarget s imm)) := rfl

/-- The register that jalr jumps through: under WRITE_FIRST the link stands in it where it is the destination (R160,
D12). -/
def jalrBase (s : State) (rd rs1 : RegIdx) : Word :=
  match s.params.jalrOrder with
  | .writeFirst => (s.setReg rd (s.pc + 4)).reg rs1
  | .readFirst  => s.reg rs1

/-- jalr links and jumps to its base plus the immediate (R160). -/
theorem exec_jalr (rd rs1 : RegIdx) (imm : Nat) (s : State) :
    exec (.jalr rd rs1 imm) s = .next ((s.setReg rd (s.pc + 4)).setPc (jalrBase s rd rs1 + imm32 imm)) := by
  unfold jalrBase
  cases ho : s.params.jalrOrder with
  | writeFirst => exact execJalr_writeFirst ho rd rs1 imm
  | readFirst => exact execJalr_readFirst ho rd rs1 imm

/-- The base is the register's value, unless the link has been written over it. -/
theorem jalrBase_of_kept {s : State} {rd rs1 : RegIdx} (h : rd ≠ rs1 ∨ s.params.jalrOrder = .readFirst) :
    jalrBase s rd rs1 = s.reg rs1 := by
  unfold jalrBase
  cases ho : s.params.jalrOrder with
  | writeFirst =>
    have hne : rd ≠ rs1 := h.resolve_right fun hread => nomatch ho.symm.trans hread
    exact s.reg_setReg_ne _ hne.symm
  | readFirst => rfl

/-- Under WRITE_FIRST, the base of a jalr through its own destination is the link. -/
theorem jalrBase_of_linked {s : State} (r : RegIdx) (h : s.params.jalrOrder = .writeFirst) :
    jalrBase s r r = s.pc + 4 := by
  simp only [jalrBase, h, State.reg_setReg_same]

/-! ### The statements -/

/-- Settles O38: link and jump, with the base that `JALR_ORDER` gives. -/
theorem jalrLinksAndJumpsThroughTheRegister : Obligations.JalrLinksAndJumpsThroughTheRegister := by
  unfold Obligations.JalrLinksAndJumpsThroughTheRegister
  refine ⟨decodesAs_ofWord .jalr, fun rd rs1 imm s => ?_⟩
  refine ⟨_, exec_jalr rd rs1 imm s, ?_, fun hkept => ?_, ?_, frame_setReg_setPc s rd _ _⟩
  · rw [State.setPc_reg, State.reg_setReg_same]
  · rw [State.setPc_pc, jalrBase_of_kept hkept, BitVec.toNat_add, imm32_toNat, Nat.add_mod_mod]
  · rintro ⟨rfl, hlinked⟩
    rw [State.setPc_pc, jalrBase_of_linked rd hlinked, BitVec.toNat_add, imm32_toNat, Nat.add_mod_mod,
      BitVec.toNat_add, Nat.mod_add_mod]
    rfl

/-- Settles O40: the template of R162, at signed greater-or-equal. -/
theorem bgeBranchesWhenGreaterOrEqualSigned : Obligations.BgeBranchesWhenGreaterOrEqualSigned := by
  unfold Obligations.BgeBranchesWhenGreaterOrEqualSigned
  refine ⟨decodesAs_ofWord .bge, fun rs1 rs2 imm s => ?_⟩
  obtain ⟨t, ht, hpc, hframe⟩ := branchIf_spec (condGe (s.reg rs1) (s.reg rs2)) imm s
  refine ⟨t, (exec_bge rs1 rs2 imm s).trans ht, fun hge => ?_, fun hlt => ?_, hframe⟩
  · rw [hpc, condGe_of_le hge, if_pos rfl]
  · rw [hpc, condGe_of_lt hlt, if_neg Bool.false_ne_true]

/-- Settles O41: the template of R162, at signed less. -/
theorem bltBranchesWhenLessSigned : Obligations.BltBranchesWhenLessSigned := by
  unfold Obligations.BltBranchesWhenLessSigned
  refine ⟨decodesAs_ofWord .blt, fun rs1 rs2 imm s => ?_⟩
  obtain ⟨t, ht, hpc, hframe⟩ := branchIf_spec (condLt (s.reg rs1) (s.reg rs2)) imm s
  refine ⟨t, (exec_blt rs1 rs2 imm s).trans ht, fun hlt => ?_, fun hge => ?_, hframe⟩
  · rw [hpc, condLt_of_lt hlt, if_pos rfl]
  · rw [hpc, condLt_of_le hge, if_neg Bool.false_ne_true]

/-- Settles O42: link and jump, with the target of R162. -/
theorem jalLinksAndJumpsForward : Obligations.JalLinksAndJumpsForward := by
  unfold Obligations.JalLinksAndJumpsForward
  refine ⟨decodesAs_ofWord .jal, fun rd imm s => ?_⟩
  refine ⟨_, exec_jal rd imm s, ?_, halfwordTarget_toNat s imm, frame_setReg_setPc s rd _ _⟩
  rw [State.setPc_reg, State.reg_setReg_same]

end Sys2Proof.Machine
end

section
/-! PROOFS. Loads, stores and memory's lanes (spec/44_load_store.md R180 to R184, spec/20_memory.md R58 and R68): the
statements O43 to O48, O51 and O52. -/

namespace Sys2Proof.Machine

/-! ### Bounds -/

/-- A word written lies in memory. -/
theorem inBounds_of_writeWord {m m' : Memory} {a v : Word} (h : m.writeWord a v = some m') :
    InBounds a 4 ∧ m' = m.setWord a.toNat v := by
  by_cases hb : InBounds a 4
  · rw [m.writeWord_of_inBounds v hb] at h; cases h; exact ⟨hb, rfl⟩
  · rw [m.writeWord_of_not_inBounds v hb] at h; cases h

/-- A byte written lies in memory. -/
theorem inBounds_of_writeByte {m m' : Memory} {a : Word} {v : Byte} (h : m.writeByte a v = some m') :
    InBounds a 1 ∧ m' = m.setByte a.toNat v := by
  by_cases hb : InBounds a 1
  · rw [m.writeByte_of_inBounds v hb] at h; cases h; exact ⟨hb, rfl⟩
  · rw [m.writeByte_of_not_inBounds v hb] at h; cases h

/-- A word read lies in memory. -/
theorem inBounds_of_readWord {m : Memory} {a w : Word} (h : m.readWord a = some w) :
    InBounds a 4 ∧ w = m.wordAt a.toNat := by
  by_cases hb : InBounds a 4
  · rw [m.readWord_of_inBounds hb] at h; cases h; exact ⟨hb, rfl⟩
  · rw [m.readWord_of_not_inBounds hb] at h; cases h

/-- Inside a word in bounds, no lane's address wraps. -/
theorem toNat_add_lane {a : Word} (h : InBounds a 4) {k : Nat} (hk : k < 4) :
    (a + BitVec.ofNat 32 k).toNat = a.toNat + k := by
  have hle : a.toNat + 4 ≤ 1048576 := h
  rw [BitVec.toNat_add, BitVec.toNat_ofNat]
  omega

/-- A lane of a word in bounds is in bounds. -/
theorem inBounds_lane {a : Word} (h : InBounds a 4) {k : Nat} (hk : k < 4) : InBounds (a + BitVec.ofNat 32 k) 1 := by
  have hle : a.toNat + 4 ≤ memSize := h
  rw [InBounds, toNat_add_lane h hk]
  omega

/-! ### Frames -/

/-- A store's frame is that of its memory. -/
theorem frame_store (s : State) (m : Memory) {a n : Nat}
    (h : ∀ b, (b < a ∨ a + n ≤ b) → m.byteAt b = s.mem.byteAt b) : FrameOfStore a n s (s.setMem m).advance :=
  ⟨fun _ => rfl, h, ⟨rfl, rfl⟩, rfl, rfl⟩

/-! ### The statements about loads and stores -/

/-- Settles O43: in bounds, lw writes the word of the four bytes and advances. -/
theorem lwLoadsTheBigEndianWord : Obligations.LwLoadsTheBigEndianWord := by
  unfold Obligations.LwLoadsTheBigEndianWord
  refine ⟨decodesAs_ofWord .lw, ?_⟩
  intro rd rs1 imm s a hin
  have ha : (effectiveAddress s rs1 imm).toNat = a := effectiveAddress_toNat s rs1 imm
  have hb : InBounds (effectiveAddress s rs1 imm) 4 := by rw [InBounds, ha]; exact hin
  refine ⟨_, execLw_inBounds hb, ?_, rfl, frame_writeAndAdvance s rd _⟩
  rw [State.writeAndAdvance_reg_same, ha]
  rfl

/-- Settles O44: in bounds, lb writes the byte, widened by the parameter, and advances. -/
theorem lbLoadsTheWidenedByte : Obligations.LbLoadsTheWidenedByte := by
  unfold Obligations.LbLoadsTheWidenedByte
  refine ⟨decodesAs_ofWord .lb, ?_⟩
  intro rd rs1 imm s a hin
  have ha : (effectiveAddress s rs1 imm).toNat = a := effectiveAddress_toNat s rs1 imm
  have hb : InBounds (effectiveAddress s rs1 imm) 1 := by rw [InBounds, ha]; exact hin
  refine ⟨_, execLb_inBounds hb, fun hext => ?_, fun hext => ?_, rfl, frame_writeAndAdvance s rd _⟩
  · rw [State.writeAndAdvance_reg_same, ha, hext, widenByte_zero_toNat]
  · rw [State.writeAndAdvance_reg_same, ha, hext, widenByte_sign_toInt]

/-- Settles O45: in bounds, sw stores the word, which is then read off lane by lane, and advances. -/
theorem swStoresTheFourBytes : Obligations.SwStoresTheFourBytes := by
  unfold Obligations.SwStoresTheFourBytes
  refine ⟨decodesAs_ofWord .sw, ?_⟩
  intro rs1 rs2 imm s a
  refine ⟨effectiveAddress_toNat s rs1 imm, fun hin => ?_⟩
  have hb : InBounds (effectiveAddress s rs1 imm) 4 := hin
  have lane : ∀ k < 4, (s.mem.setWord a (s.reg rs2)).byteAt (a + k) = byteOfWord (s.reg rs2) k :=
    fun k => s.mem.byteAt_setWord_lane a _
  exact ⟨_, execSw_inBounds hb, lane 0 (by decide), lane 1 (by decide), lane 2 (by decide), lane 3 (by decide), rfl,
    frame_store s _ fun b => s.mem.byteAt_setWord_outside _⟩

/-- Settles O46: in bounds, sb stores the low byte, which is the value modulo 256, and advances. -/
theorem sbStoresTheLowByte : Obligations.SbStoresTheLowByte := by
  unfold Obligations.SbStoresTheLowByte
  refine ⟨decodesAs_ofWord .sb, ?_⟩
  intro rs1 rs2 imm s a
  refine ⟨effectiveAddress_toNat s rs1 imm, fun hin => ?_⟩
  have hb : InBounds (effectiveAddress s rs1 imm) 1 := hin
  refine ⟨_, execSb_inBounds hb, ?_, rfl, frame_store s _ fun b hout => s.mem.byteAt_setByte_ne _ (by omega)⟩
  rw [State.advance_mem, State.setMem_mem, Memory.byteAt_setByte_same, BitVec.extractLsb'_toNat, Nat.shiftRight_zero]

/-- Settles O47: the four accesses end in the one fatal error of R184. -/
theorem outOfBoundsAccessIsFatal : Obligations.OutOfBoundsAccessIsFatal := by
  unfold Obligations.OutOfBoundsAccessIsFatal
  exact fun i s a n kind ha hk hout => ⟨_, exec_outOfBounds ha hk hout, rfl, frame_raiseFatal s kind a, rfl, rfl⟩

/-- Settles O48: lw reads, at the address sw wrote, the word sw wrote. -/
theorem swThenLwReturnsTheStoredWord : Obligations.SwThenLwReturnsTheStoredWord := by
  unfold Obligations.SwThenLwReturnsTheStoredWord
  intro rs1 rs2 rd rs1' imm imm' s t ht hb hea
  obtain rfl : _ = t := Host.Outcome.next.inj ((execSw_inBounds hb).symm.trans ht)
  refine ⟨_, execLw_inBounds (hea.symm ▸ hb), ?_⟩
  rw [State.writeAndAdvance_reg_same, hea, State.advance_mem, State.setMem_mem, Memory.wordAt_setWord_same]

/-! ### The statements about lanes -/

/-- Settles O51: a lane's address does not wrap, so a lane read is a byte of the word, and a byte stored in a lane is at
no other lane's address. -/
theorem byteLanesCountFromTheMostSignificantEnd : Obligations.ByteLanesCountFromTheMostSignificantEnd := by
  unfold Obligations.ByteLanesCountFromTheMostSignificantEnd
  constructor
  · intro m m' a v k hw hk
    obtain ⟨hb, rfl⟩ := inBounds_of_writeWord hw
    rw [Memory.readByte_of_inBounds _ (inBounds_lane hb hk), toNat_add_lane hb hk, m.byteAt_setWord_lane _ _ hk]
    rfl
  · intro m m' a w b k hr hk hw
    obtain ⟨hb, rfl⟩ := inBounds_of_readWord hr
    obtain ⟨-, rfl⟩ := inBounds_of_writeByte hw
    rw [toNat_add_lane hb hk]
    have lane : ∀ j < 4, byteOfWord ((m.setByte (a.toNat + k) b).wordAt a.toNat) j =
        (m.setByte (a.toNat + k) b).byteAt (a.toNat + j) := fun j => Memory.byteOfWord_wordAt _ _
    refine ⟨_, Memory.readWord_of_inBounds _ hb, (lane k hk).trans (m.byteAt_setByte_same _ b), fun j hj hne => ?_⟩
    have hother : a.toNat + j ≠ a.toNat + k := by omega
    exact ((lane j hj).trans (m.byteAt_setByte_ne b hother)).trans (m.byteOfWord_wordAt a.toNat hj).symm

/-- After a store, the next step runs the word that the stored memory holds at the next pc (R68). -/
theorem step_after_store {s : State} {m : Memory} (hr : s.status = .running)
    (hf : (s.setMem m).advance.Fetchable) :
    step (s.setMem m).advance = runWord (s.setMem m).advance (m.wordAt (s.pc + 4).toNat) :=
  step_fetchable hr hf

/-- Settles O52: the next step fetches from the memory the store left, byte by byte. -/
theorem nextFetchSeesTheStoredBytes : Obligations.NextFetchSeesTheStoredBytes := by
  unfold Obligations.NextFetchSeesTheStoredBytes
  refine ⟨fun rs1 rs2 imm s t hr ht hea hb hf => ?_, fun rs1 rs2 imm s t hr ht hb hf => ?_,
    fun rs1 rs2 imm s t hr ht hb hf => ?_⟩
  · obtain rfl : _ = t := Host.Outcome.next.inj ((execSw_inBounds (hea.symm ▸ hb)).symm.trans ht)
    rw [step_after_store hr hf, hea, Memory.wordAt_setWord_same]
  · obtain rfl : _ = t := Host.Outcome.next.inj ((execSw_inBounds hb).symm.trans ht)
    refine ⟨_, step_after_store hr hf, fun k hk => ?_⟩
    exact (Memory.byteOfWord_wordAt _ _ hk).trans (s.mem.byteAt_setWord _ _ _)
  · obtain rfl : _ = t := Host.Outcome.next.inj ((execSb_inBounds hb).symm.trans ht)
    refine ⟨_, step_after_store hr hf, fun k hk => ?_⟩
    exact (Memory.byteOfWord_wordAt _ _ hk).trans (s.mem.byteAt_setByte _ _ _)

end Sys2Proof.Machine
end

section
/-! PROOFS. HALT (spec/45_halt_invalid.md R200): the statement O53. -/

namespace Sys2Proof.Machine

/-- Settles O53: the halt test comes before the opcode table, and HALT sets the status alone. -/
theorem haltSetsHaltedAndNothingElse : Obligations.HaltSetsHaltedAndNothingElse := by
  unfold Obligations.HaltSetsHaltedAndNothingElse
  refine ⟨fun p => decodeWord_of_isHaltWord (isHaltWord_haltWord p), fun p w hm hop => ?_, fun s => ?_⟩
  · exact decodeWord_of_isHaltWord (isHaltWord_iff.mpr (.inr ⟨hm, hop⟩))
  · exact ⟨s.halt, exec_halt s, rfl, rfl, fun _ => rfl, fun _ => rfl, ⟨rfl, rfl⟩, rfl⟩

end Sys2Proof.Machine
end

section
/-! PROOFS. The speedup (spec/60_exceptions.md R221, R222): the statement O55. -/

namespace Sys2Proof.Machine

/-- Nonzero cycles at a positive frequency take a positive time (R221). -/
theorem executionTime_pos {s : State} (hc : 0 < s.cycles) (hf : 0 < s.params.cfg.freqMhz) :
    0 < (s.cycles : Rat) / ((s.params.cfg.freqMhz : Rat) * 1000000) := by
  have hcycles : (0 : Rat) < s.cycles := Nat.cast_pos.mpr hc
  have hfreq : (0 : Rat) < s.params.cfg.freqMhz := Nat.cast_pos.mpr hf
  positivity

/-- A positive time against its half is a speedup of 2 (R222). -/
theorem speedup_half {q : Rat} (h : 0 < q) : speedup q (q / 2) = some 2 := by
  have hlt : q / 2 < q := half_lt_self h
  have hne : ¬ (q = 0 ∨ q / 2 = 0) := not_or.mpr ⟨h.ne', (half_pos h).ne'⟩
  rw [speedup, if_neg hne, max_eq_left hlt.le, min_eq_right hlt.le, div_div_cancel₀ h.ne']

/-- Settles O55: at twice the frequency the time is half. -/
theorem doublingTheFrequencyGivesSpeedupTwo : Obligations.DoublingTheFrequencyGivesSpeedupTwo := by
  unfold Obligations.DoublingTheFrequencyGivesSpeedupTwo
  intro s t hpos hcycles hfreq hdouble
  have hq := executionTime_pos hpos hfreq
  have hfreq' : 0 < t.params.cfg.freqMhz := by omega
  have hhalf : (t.cycles : Rat) / ((t.params.cfg.freqMhz : Rat) * 1000000) =
      (s.cycles : Rat) / ((s.params.cfg.freqMhz : Rat) * 1000000) / 2 := by
    rw [hcycles, hdouble, Nat.cast_mul, Nat.cast_ofNat, div_div]
    ring
  refine ⟨_, _, executionTime_of_legal hfreq, executionTime_of_legal hfreq', ?_, ?_⟩
  · rw [hhalf]; exact speedup_half hq
  · rw [hhalf]; exact half_lt_self hq

end Sys2Proof.Machine
end

section
/-! PROOFS. The host (spec/10_state.md R44, spec/45_halt_invalid.md R203): the statements O56 to O58. -/

namespace Sys2Proof.Machine

/-! ### One action each -/

/-- A block that is RUNNING after its first step takes no act but a step (R44). -/
theorem eq_step_of_perform {t u : Session} {a : HostAction} (hs : t.stepped = true) (hr : t.block.status = .running)
    (h : t.perform a = some u) : a = .step := by
  have hno : t.hostMayAct ≠ true := by rw [hostMayAct_stepped hs hr]; exact Bool.false_ne_true
  obtain ⟨-, hmay, -⟩ | ⟨_, -, hmay, -⟩ | ⟨_, -, hmay, -⟩ | ⟨_, rfl, -⟩ := perform_cases h
  · exact absurd hmay hno
  · exact absurd hmay hno
  · exact absurd hmay hno
  · rfl

/-- An act other than a step is then refused. -/
theorem perform_eq_none {t : Session} {a : HostAction} (hs : t.stepped = true) (hr : t.block.status = .running)
    (ha : a ≠ .step) : t.perform a = none :=
  Option.eq_none_iff_forall_ne_some.mpr fun _ h => ha (eq_step_of_perform hs hr h)

/-- The host's reset keeps the data invariant: all but the parameters is as after reset (R240). -/
theorem hostReset_dataInv {s : State} (h : s.DataInv) : s.hostReset.DataInv := by
  obtain ⟨-, -, -, hl⟩ := h
  exact ⟨Memory.zero_wf, Nat.two_pow_pos _, Nat.two_pow_pos _, hl⟩

/-- Every action of the host keeps the data invariant. -/
theorem perform_dataInv {t u : Session} {a : HostAction} (h : t.block.DataInv) (hp : t.perform a = some u) :
    u.block.DataInv := by
  obtain ⟨-, -, rfl⟩ | ⟨image, -, -, hin, rfl⟩ | ⟨cfg, -, -, hcfg, rfl⟩ | ⟨s, -, hs, rfl⟩ := perform_cases hp
  · exact hostReset_dataInv h
  · obtain ⟨hm, hc, hn, hl⟩ := h
    exact ⟨Memory.loadImage_wf hm hin, hc, hn, hl⟩
  · obtain ⟨hm, hc, hn, hopc, hw, -⟩ := h
    exact ⟨hm, hc, hn, hopc, hw, hcfg⟩
  · exact step_dataInv h hs

/-! ### The statements -/

/-- Settles O56: the three acts that need leave do not get it, and neither a load nor a supply touches registers, pc,
counters or status. -/
theorem steppedRunningBlockIsOnlyStepped : Obligations.SteppedRunningBlockIsOnlyStepped := by
  unfold Obligations.SteppedRunningBlockIsOnlyStepped
  refine ⟨fun t hs hr => ⟨fun _ => perform_eq_none hs hr nofun, fun _ => perform_eq_none hs hr nofun,
    perform_eq_none hs hr nofun, fun a hsome => ?_⟩, fun t u a hp hstep hreset => ?_⟩
  · by_contra ha
    exact hsome (perform_eq_none hs hr ha)
  · obtain ⟨ha, -⟩ | ⟨_, -, -, -, rfl⟩ | ⟨_, -, -, -, rfl⟩ | ⟨_, ha, -⟩ := perform_cases hp
    · exact absurd ha hreset
    · exact ⟨fun _ => rfl, rfl, ⟨rfl, rfl⟩, rfl⟩
    · exact ⟨fun _ => rfl, rfl, ⟨rfl, rfl⟩, rfl⟩
    · exact absurd ha hstep

/-- Settles O57: where the host may act each act is its defining update, a RUNNING block has a step, and R203's reset is
defined in its hang alone. -/
theorem hostActionsHaveTheirEffectAlone : Obligations.HostActionsHaveTheirEffectAlone := by
  unfold Obligations.HostActionsHaveTheirEffectAlone
  refine ⟨fun t hallowed => ?_, fun t hr => ?_, fun t u => ?_⟩
  · have hmay : t.hostMayAct = true := hostMayAct_iff.mpr hallowed
    refine ⟨fun image hin => ?_, fun cfg hcfg => perform_supply hmay hcfg, ?_⟩
    · refine ⟨_, perform_load hmay hin, rfl, ?_, fun a hout => Memory.byteAt_loadImage_ne _ hout, fun _ => rfl, rfl,
        ⟨rfl, rfl⟩, rfl, rfl⟩
      rintro pre a v post rfl hlast
      exact Memory.byteAt_loadImage_last _ pre a v hlast
    · exact ⟨_, perform_reset hmay, rfl, rfl, t.block.hostReset_reg, rfl, fun _ => rfl, rfl, rfl, rfl⟩
  · obtain ⟨s, hs⟩ := step_of_running hr
    exact ⟨s, hs, perform_step hs⟩
  · rw [endHang_eq_some, State.Spins, and_comm (a := classify _ _ = _)]

/-- Settles O58: each action keeps the data invariant, and the end of the hang is a reset. -/
theorem hostActionsKeepTheDataInvariant : Obligations.HostActionsKeepTheDataInvariant := by
  unfold Obligations.HostActionsKeepTheDataInvariant
  refine ⟨fun t u a h hp => perform_dataInv h hp, fun t u h hend => ?_⟩
  obtain ⟨-, rfl⟩ := endHang_eq_some.mp hend
  exact hostReset_dataInv h

end Sys2Proof.Machine
end
